-- ==== Sys2Proof/Word.lean ====
section
/-! DEFINITION. The machine's widths (00_scope.md R7, R8): 32-bit words, bytes, 7-bit host addresses and step indices.
Everything is an unsigned bit vector (R9). -/

namespace Sys2Proof

/-- A 32-bit unsigned word: a register, a block word, a constant (R7). -/
abbrev Word := BitVec 32

/-- The unit of the host bus and of the block buffer (R8, R35). -/
abbrev Byte := BitVec 8

/-- A 7-bit byte address of the host address space (R53). -/
abbrev Addr := BitVec 7

/-- A value of the 7-bit step counter, which is the sequencer's instruction word (R25, R80). -/
abbrev StepIdx := BitVec 7

end Sys2Proof
end

