-- ==== Sys2Proof/Config.lean ====
section
/-! DEFINITION. What the spec leaves open as a value. There is one such point that anything can observe: the contents of
the block buffer after a reset (10_state.md R39, 70_reset_and_hazards.md R216, 93_implementation_defined.md U1). -/

namespace Sys2Proof

/-- FREE VALUE (log entry 3). `blkAtReset r n` is the byte that `BLK[n]` holds after the machine's `r`-th reset
transition (0 is the reset that `State.reset` stands for) until the host first writes it. It has no body, so nothing can
be proved about any value of it: R39 says a model must treat these bytes as arbitrary, and R216 that each is fixed at the
reset. -/
opaque Config.blkAtReset : Nat → Nat → Byte

end Sys2Proof
end

