-- ==== Sys2Proof/Machine/Datapath.lean ====
section
/-! DEFINITION. The arithmetic units of the core (43_compression_core.md R140 to R142): adder, rotator, four-operand sum.
None writes a flag (R29). -/

namespace Sys2Proof.Machine

/-- ADD32: the sum modulo 2^32, the carry out of bit 31 dropped (R140). -/
def add32 (x y : Word) : Word := x + y

/-- ROTL32: circular left shift by a 5-bit amount (R141). At amount 0 the right shift by 32 gives 0, so the result is `x`,
the identity the spec decides on (92_eei_decisions.md D12). -/
def rotl32 (x : Word) (n : BitVec 5) : Word := (x <<< n.toNat) ||| (x >>> (32 - n.toNat))

/-- SUM4: the four-operand sum of a step, a chain of three adders (R142). -/
def sum4 (f a kc m : Word) : Word := add32 (add32 (add32 f a) kc) m

end Sys2Proof.Machine
end

