-- ==== Sys2Proof/Machine/Tables.lean ====
section
/-! DEFINITION. The constants the hardware is built with: the rotation amounts S and the constant ROM K
(40_constants_tables.md R110, R112) and the initial chaining constants IV (10_state.md R21). They are not state (R34). -/

namespace Sys2Proof.Machine

/-- `K[0..15]`, the constants of the first round (R112). -/
def kRound0 : List Word := [
   0xD76AA478#32, 0xE8C7B756#32, 0x242070DB#32, 0xC1BDCEEE#32,
   0xF57C0FAF#32, 0x4787C62A#32, 0xA8304613#32, 0xFD469501#32,
   0x698098D8#32, 0x8B44F7AF#32, 0xFFFF5BB1#32, 0x895CD7BE#32,
   0x6B901122#32, 0xFD987193#32, 0xA679438E#32, 0x49B40821#32]

/-- `K[16..31]`, the constants of the second round (R112). -/
def kRound1 : List Word := [
   0xF61E2562#32, 0xC040B340#32, 0x265E5A51#32, 0xE9B6C7AA#32,
   0xD62F105D#32, 0x02441453#32, 0xD8A1E681#32, 0xE7D3FBC8#32,
   0x21E1CDE6#32, 0xC33707D6#32, 0xF4D50D87#32, 0x455A14ED#32,
   0xA9E3E905#32, 0xFCEFA3F8#32, 0x676F02D9#32, 0x8D2A4C8A#32]

/-- `K[32..47]`, the constants of the third round (R112). -/
def kRound2 : List Word := [
   0xFFFA3942#32, 0x8771F681#32, 0x6D9D6122#32, 0xFDE5380C#32,
   0xA4BEEA44#32, 0x4BDECFA9#32, 0xF6BB4B60#32, 0xBEBFBC70#32,
   0x289B7EC6#32, 0xEAA127FA#32, 0xD4EF3085#32, 0x04881D05#32,
   0xD9D4D039#32, 0xE6DB99E5#32, 0x1FA27CF8#32, 0xC4AC5665#32]

/-- `K[48..63]`, the constants of the fourth round (R112). -/
def kRound3 : List Word := [
   0xF4292244#32, 0x432AFF97#32, 0xAB9423A7#32, 0xFC93A039#32,
   0x655B59C3#32, 0x8F0CCC92#32, 0xFFEFF47D#32, 0x85845DD1#32,
   0x6FA87E4F#32, 0xFE2CE6E0#32, 0xA3014314#32, 0x4E0811A1#32,
   0xF7537E82#32, 0xBD3AF235#32, 0x2AD7D2BB#32, 0xEB86D391#32]

/-- The constant ROM, 64 words (R112). -/
def kTable : List Word := kRound0 ++ kRound1 ++ kRound2 ++ kRound3

/-- `K[i]`: the ROM is indexed by `i[5:0]` (R81, R83, R112). -/
def kConst (i : StepIdx) : Word := kTable.getD (i.extractLsb' 0 6).toNat 0

/-- The rotation amounts by row (round index) and column, row after row (R110). -/
def sTable : List (BitVec 5) :=
  [7#5, 12#5, 17#5, 22#5,
   5#5, 9#5, 14#5, 20#5,
   4#5, 11#5, 16#5, 23#5,
   6#5, 10#5, 15#5, 21#5]

/-- `S[r][c]` (R110). -/
def rotAmount (r c : BitVec 2) : BitVec 5 := sTable.getD (4 * r.toNat + c.toNat) 0

/-- `IV[0]`, loaded into A (R21). -/
def iv0 : Word := 0x67452301#32

/-- `IV[1]`, loaded into B (R21). -/
def iv1 : Word := 0xEFCDAB89#32

/-- `IV[2]`, loaded into C (R21). -/
def iv2 : Word := 0x98BADCFE#32

/-- `IV[3]`, loaded into D (R21). -/
def iv3 : Word := 0x10325476#32

end Sys2Proof.Machine
end

