-- ==== Sys2Proof/Machine/State.lean ====
section
/-! DEFINITION. The state of one MD5C instance (10_state.md R20), what stands on its input and output ports
(44_host_commands.md R160), the reasons to stop, and the state right after reset (R39). -/

namespace Sys2Proof.Machine

/-- Four 32-bit registers: A, B, C, D of the chaining state (R21) or a, b, c, d of the working registers (R22). The spec
indexes them 0 to 3 in this order. -/
structure Quad where
  a : Word
  b : Word
  c : Word
  d : Word
deriving DecidableEq, Repr

/-- One sample of the input ports (R160): the reset request `rst`, `sel` (a transaction is presented), `we` (1 for a
write), `addr` and `wdata`. -/
structure Ports where
  rst : Bool
  sel : Bool
  we : Bool
  addr : Addr
  wdata : Byte
deriving DecidableEq, Repr

/-- All input pins at 0: no reset and no transaction, so it is the sequencer's turn. -/
def Ports.idle : Ports := ⟨false, false, false, 0#7, 0x00#8⟩

/-- The block buffer as the bytes written since the last reset: pairs of an address below 64 and a byte, addresses
strictly rising (log entry 4). What an unlisted byte reads as is `Memory.read`'s to say. -/
abbrev Memory := List Host.Cell

/-- The state. The first five fields are the complete hardware state of R20; the last three are the model's own: what the
outside world presents, what it has been given, and the index of the free values. -/
structure State where
  /-- `H[0..3]`, the chaining registers (R21). -/
  h : Quad
  /-- `W[0..3]`, the working registers (R22). -/
  w : Quad
  /-- `BLK[0..63]`, the block buffer (R35). -/
  blk : Memory
  /-- The step counter, this hardware's program counter (R25). -/
  i : StepIdx
  /-- The BUSY flag (R28). -/
  busy : Bool
  /-- The samples of the input ports still to come, oldest first (log entry 1). -/
  inputs : List Ports
  /-- The bytes that RD transactions have returned on `rdata`, oldest first (log entry 6). -/
  returned : List Byte
  /-- How many reset transitions have happened (log entry 7). -/
  resets : Nat
deriving DecidableEq, Repr

/-- Where the model stops with a fault. The hardware raises no exception (R190): neither constructor is an exception of
the hardware, and neither can be reached from reset. -/
inductive Fault where
  /-- Raised by the step when it is the sequencer's turn with `busy = 1` and the counter in 65..127, values that select no
  operation ("the sequencer is stuck", R85). Safe: the spec gives no transition there (log entry 9). -/
  | sequencerStuck
  /-- Raised by the meanings of STEP.F, STEP.G, STEP.H, STEP.I and FOLD when `busy` and `i` do not select that operation,
  the `require` lines of R145 to R149. Safe: the spec gives the operation no transition there (log entry 8). -/
  | notEnabled
deriving DecidableEq, Repr

/-- Where the model has no answer. -/
inductive Refusal where
  /-- Raised only by an arm of `exec` whose instruction has no meaning yet; no arm does. Safe. -/
  | notModelled (mnemonic : String)
deriving DecidableEq, Repr

/-- The machine right after reset (R39): IV in `H`, counter and BUSY at 0, nothing written to `BLK`. `W` has no specified
value; the model names 0 (DESIGN CHOICE, log entry 5, unsafe). The model's own fields start empty and at 0. -/
def State.reset : State where
  h := ⟨iv0, iv1, iv2, iv3⟩
  w := ⟨0, 0, 0, 0⟩
  blk := []
  i := 0
  busy := false
  inputs := []
  returned := []
  resets := 0

end Sys2Proof.Machine
end

