-- ==== Sys2Proof/Machine/Flags.lean ====
section
/-! DEFINITION. The one flag, BUSY, and its two views (10_state.md R28, R32; 44_host_commands.md R160). There are no
arithmetic flags (R29). -/

namespace Sys2Proof.Machine

/-- BUSY as one bit. -/
def busyBit (s : State) : BitVec 1 := BitVec.ofBool s.busy

/-- The byte a read of STATUS returns: bit 0 is BUSY, bits 7:1 are 0 (R32). -/
def statusByte (s : State) : Byte := 0b0000000#7 ++ busyBit s

/-- The output port `busy`, a copy of the flag (R160). -/
def busyPort (s : State) : BitVec 1 := busyBit s

end Sys2Proof.Machine
end

