-- ==== Sys2Proof/Machine/Operands.lean ====
section
/-! DEFINITION. How operands are obtained: the fields of the step index (00_scope.md R12, 30_encoding.md R81), the schedule
index (41_block_scheduler.md R122), the little-endian word unpacker (R120), bytes of a register file (10_state.md R33), and
the named addresses of the host address map (20_memory.md R53). -/

namespace Sys2Proof.Machine

/-- The round index `r = i[5:4]` (R12). -/
def roundIdx (i : StepIdx) : BitVec 2 := i.extractLsb' 4 2

/-- The rotation column `c = i[1:0]` (R12). -/
def colIdx (i : StepIdx) : BitVec 2 := i.extractLsb' 0 2

/-- `k(i)` in round 1: the step index itself (R122). -/
def schedF (i : StepIdx) : BitVec 4 := i.extractLsb' 0 4

/-- `k(i)` in round 2 (R122). -/
def schedG (i : StepIdx) : BitVec 4 := BitVec.ofNat 4 ((5 * i.toNat + 1) % 16)

/-- `k(i)` in round 3 (R122). -/
def schedH (i : StepIdx) : BitVec 4 := BitVec.ofNat 4 ((3 * i.toNat + 5) % 16)

/-- `k(i)` in round 4 (R122). -/
def schedI (i : StepIdx) : BitVec 4 := BitVec.ofNat 4 ((7 * i.toNat) % 16)

/-- SCHED, the schedule index `k(i)` of any step (R122). -/
def sched (i : StepIdx) : BitVec 4 :=
  if roundIdx i = 0#2 then schedF i
  else if roundIdx i = 1#2 then schedG i
  else if roundIdx i = 2#2 then schedH i
  else schedI i

/-- UNPACK: word `M[j]` of a block of 64 bytes, the first byte least significant (R120). Byte `4*j + n` has the index
`j` followed by the two bits of `n`. -/
def unpack (bytes : BitVec 6 → Byte) (j : BitVec 4) : Word :=
  bytes (j ++ 3#2) ++ bytes (j ++ 2#2) ++ bytes (j ++ 1#2) ++ bytes (j ++ 0#2)

/-- Register `j` of a file of four, in the order of R21 and R22. -/
def quadReg (q : Quad) (j : BitVec 2) : Word :=
  if j = 0#2 then q.a else if j = 1#2 then q.b else if j = 2#2 then q.c else q.d

/-- Byte `n` of register `j`, bits `8n+7..8n` (R33). -/
def quadByte (q : Quad) (j n : BitVec 2) : Byte := (quadReg q j).extractLsb' (8 * n.toNat) 8

/-- The address of CTRL (R30, R53). -/
def ctrlAddr : Addr := 0x50#7

/-- The address of STATUS (R32, R53). -/
def statusAddr : Addr := 0x51#7

end Sys2Proof.Machine
end

