-- ==== Sys2Proof/Machine/Ops.lean ====
section
/-! DEFINITION. The named operations over the state: the block buffer, the registers, the host address space (20_memory.md
R54, R55), the commands (44_host_commands.md R163 to R167), the update of a STEP (43_compression_core.md R144) and the
reset transition (70_reset_and_hazards.md R210). There is no operation that takes an exception: the hardware has none and
saves no state anywhere (60_exceptions.md R190, R198). -/

namespace Sys2Proof.Machine

/-- The byte listed for an address, if the host has written it since the last reset. -/
def Memory.find : Memory → Nat → Option Byte
  | [], _ => none
  | (b, v) :: m, a => if a = b then some v else Memory.find m a

/-- The byte at an address: the last one written, or else the free value fixed at the `r`-th reset (R39, R216). This is the
one place that says what an unlisted address reads as. -/
def Memory.read (r : Nat) (m : Memory) (a : Nat) : Byte := (Memory.find m a).getD (Config.blkAtReset r a)

/-- Writes a byte, keeping the addresses strictly rising. -/
def Memory.write : Memory → Nat → Byte → Memory
  | [], a, v => [(a, v)]
  | (b, u) :: m, a, v =>
    if a < b then (a, v) :: (b, u) :: m
    else if a = b then (a, v) :: m
    else (b, u) :: Memory.write m a v

/-- The addresses rise strictly. -/
def Memory.rising : Memory → Bool
  | [] => true
  | c :: m => m.all (fun e => decide (c.1 < e.1)) && Memory.rising m

/-- The canonical form of the block buffer: addresses strictly rising and below 64 (log entry 4). -/
def Memory.wf (m : Memory) : Bool := Memory.rising m && m.all (fun c => decide (c.1 < 64))

/-- `BLK[n]` (R35). -/
def blkByte (s : State) (n : BitVec 6) : Byte := Memory.read s.resets s.blk n.toNat

/-- `M[j]`, the block word the core sees (R35, R120); the FETCH of R125 reads it at `j = k(i)`. -/
def msgWord (s : State) (j : BitVec 4) : Word := unpack (blkByte s) j

/-- `H <- q`. -/
def setH (q : Quad) (s : State) : State := { s with h := q }

/-- `W <- q`, the four writes at once (R144). -/
def setW (q : Quad) (s : State) : State := { s with w := q }

/-- `i <- v` (R26). -/
def setI (v : StepIdx) (s : State) : State := { s with i := v }

/-- `busy <- b` (R28). -/
def setBusy (b : Bool) (s : State) : State := { s with busy := b }

/-- `BLK[n] <- v` (R35). -/
def setBlk (n : BitVec 6) (v : Byte) (s : State) : State := { s with blk := Memory.write s.blk n.toNat v }

/-- Puts a byte on `rdata` for the host: the `result <- ...` of R161. -/
def giveByte (v : Byte) (s : State) : State := { s with returned := s.returned ++ [v] }

/-- MemRead(addr, 1) (R54). The values of `ADDR[5:0]` index BLK, those of `ADDR[3:2]` and `ADDR[1:0]` a byte of `H`
(R88). -/
def memRead (s : State) (addr : Addr) : Byte :=
  if addr.toNat ≤ 0x3F then blkByte s (addr.extractLsb' 0 6)
  else if addr.toNat ≤ 0x4F then quadByte s.h (addr.extractLsb' 2 2) (addr.extractLsb' 0 2)
  else if addr = statusAddr then statusByte s
  else 0x00#8

/-- The initial chaining state IV (R21, R116). -/
def ivQuad : Quad := ⟨iv0, iv1, iv2, iv3⟩

/-- The effect of INIT: `H <- IV` and nothing else (R166). -/
def loadIV (s : State) : State := setH ivQuad s

/-- The effect of START: copy `H` to `W`, counter to 0, BUSY to 1 (R167). -/
def startBlock (s : State) : State := setBusy true (setI 0#7 (setW s.h s))

/-- Command(v), reached only while `busy = 0`; reserved values have no effect (R163, R92). -/
def command (v : Byte) (s : State) : State :=
  if v = 0x00#8 then s
  else if v = 0x01#8 then loadIV s
  else if v = 0x02#8 then startBlock s
  else s

/-- MemWrite(addr, 1, v) (R55). -/
def memWrite (addr : Addr) (v : Byte) (s : State) : State :=
  if s.busy then s
  else if addr.toNat ≤ 0x3F then setBlk (addr.extractLsb' 0 6) v s
  else if addr = ctrlAddr then command v s
  else s

/-- What a STEP with index `i` writes, given its round's function value `f`, its round's index `r` and its block word
index `k` (R143, R144): all right-hand sides are read before any write (R11). -/
def stepUpdate (i : StepIdx) (r : BitVec 2) (f : Word) (k : BitVec 4) (s : State) : State :=
  setI (i + 1) (setW
    ⟨s.w.d,
     add32 (rotl32 (sum4 f s.w.a (kConst i) (msgWord s k)) (rotAmount r (colIdx i))) s.w.b,
     s.w.b,
     s.w.c⟩ s)

/-- The four additions of a FOLD, each modulo 2^32 on its own (R149). -/
def addQuad (x y : Quad) : Quad := ⟨add32 x.a y.a, add32 x.b y.b, add32 x.c y.c, add32 x.d y.d⟩

/-- What a FOLD writes (R149). -/
def foldUpdate (s : State) : State := setBusy false (setI 0#7 (setH (addQuad s.h s.w) s))

/-- The reset transition (R210, R211): the reset state of R39 with the bytes of `BLK` unspecified anew. What the ports
still bring and have brought is no hardware state and stays. -/
def resetTransition (s : State) : State :=
  { State.reset with inputs := s.inputs, returned := s.returned, resets := s.resets + 1 }

end Sys2Proof.Machine
end

