-- ==== Sys2Proof/Machine/Bus.lean ====
section
/-! DEFINITION. The bus transactions RD and WR (44_host_commands.md R161, R162). Neither can fail (20_memory.md R56). -/

namespace Sys2Proof.Machine

/-- RD: returns the byte at the address and writes no state (R161). -/
def execRd (addr : Addr) (s : State) : Host.Outcome State Fault Refusal :=
  .next (giveByte (memRead s addr) s)

/-- WR: MemWrite, whatever the address and the data (R162); it returns nothing. -/
def execWr (addr : Addr) (data : Byte) (s : State) : Host.Outcome State Fault Refusal :=
  .next (memWrite addr data s)

end Sys2Proof.Machine
end

