-- ==== Sys2Proof/Machine/Commands.lean ====
section
/-! DEFINITION. The commands NOP, INIT and START (44_host_commands.md R165 to R167). While `busy = 1` the write that
carries them is dropped (20_memory.md R55, R164). -/

namespace Sys2Proof.Machine

/-- NOP: no state change, in any state (R165). -/
def execNop (s : State) : Host.Outcome State Fault Refusal := .next s

/-- INIT: `H <- IV` while idle, dropped while busy (R166). -/
def execInit (s : State) : Host.Outcome State Fault Refusal :=
  .next (if s.busy then s else loadIV s)

/-- START: begins a block while idle, dropped while busy (R167). -/
def execStart (s : State) : Host.Outcome State Fault Refusal :=
  .next (if s.busy then s else startBlock s)

end Sys2Proof.Machine
end

