-- ==== Sys2Proof/Machine/Rounds.lean ====
section
/-! DEFINITION. The round functions F, G, H, I and the per-round multiplexer (42_round_functions.md R130 to R135). -/

namespace Sys2Proof.Machine

/-- NOT32: every bit inverted, `(2^32 - 1) - x` (R130). -/
def not32 (x : Word) : Word := ~~~x

/-- F, round 1 (R131). -/
def roundF (b c d : Word) : Word := (b &&& c) ||| (not32 b &&& d)

/-- G, round 2 (R132). -/
def roundG (b c d : Word) : Word := (b &&& d) ||| (c &&& not32 d)

/-- H, round 3 (R133). -/
def roundH (b c d : Word) : Word := b ^^^ c ^^^ d

/-- I, round 4 (R134). -/
def roundI (b c d : Word) : Word := c ^^^ (b ||| not32 d)

/-- RF: the function the round index selects (R135). -/
def roundMux (r : BitVec 2) (b c d : Word) : Word :=
  if r = 0#2 then roundF b c d
  else if r = 1#2 then roundG b c d
  else if r = 2#2 then roundH b c d
  else roundI b c d

end Sys2Proof.Machine
end

