-- ==== Sys2Proof/Machine/Steps.lean ====
section
/-! DEFINITION. The operations of the sequencer: the four STEPs and FOLD (43_compression_core.md R145 to R149). Each is
enabled only when `busy = 1` and the counter holds its index; asked for elsewhere it stops by name (log entry 8). -/

namespace Sys2Proof.Machine

/-- STEP.F (R145). -/
def execStepF (i : StepIdx) (s : State) : Host.Outcome State Fault Refusal :=
  if s.busy = true ∧ s.i = i ∧ i.toNat ≤ 15 then
    .next (stepUpdate i 0#2 (roundF s.w.b s.w.c s.w.d) (schedF i) s)
  else .fault .notEnabled

/-- STEP.G (R146). -/
def execStepG (i : StepIdx) (s : State) : Host.Outcome State Fault Refusal :=
  if s.busy = true ∧ s.i = i ∧ 16 ≤ i.toNat ∧ i.toNat ≤ 31 then
    .next (stepUpdate i 1#2 (roundG s.w.b s.w.c s.w.d) (schedG i) s)
  else .fault .notEnabled

/-- STEP.H (R147). -/
def execStepH (i : StepIdx) (s : State) : Host.Outcome State Fault Refusal :=
  if s.busy = true ∧ s.i = i ∧ 32 ≤ i.toNat ∧ i.toNat ≤ 47 then
    .next (stepUpdate i 2#2 (roundH s.w.b s.w.c s.w.d) (schedH i) s)
  else .fault .notEnabled

/-- STEP.I (R148). -/
def execStepI (i : StepIdx) (s : State) : Host.Outcome State Fault Refusal :=
  if s.busy = true ∧ s.i = i ∧ 48 ≤ i.toNat ∧ i.toNat ≤ 63 then
    .next (stepUpdate i 3#2 (roundI s.w.b s.w.c s.w.d) (schedI i) s)
  else .fault .notEnabled

/-- FOLD (R149). -/
def execFold (s : State) : Host.Outcome State Fault Refusal :=
  if s.busy = true ∧ s.i = 64#7 then .next (foldUpdate s) else .fault .notEnabled

end Sys2Proof.Machine
end

