-- ==== Sys2Proof/Syntax.lean ====
section
/-! DEFINITION. The instructions: one constructor per row of spec/opcode_table.json, five of format S (the step index) and
five of format B (the bus transaction word), 30_encoding.md R80 to R87. -/

namespace Sys2Proof

/-- One constructor per row of the opcode table. The operand of a STEP is its step index, the `<i>` of the notation
`STEP.F <i>` (R95), from which every other operand of the step is computed (R83). -/
inductive Instr where
  /-- STEP.F, a step of round 1 (R145). -/
  | stepF (i : StepIdx)
  /-- STEP.G, a step of round 2 (R146). -/
  | stepG (i : StepIdx)
  /-- STEP.H, a step of round 3 (R147). -/
  | stepH (i : StepIdx)
  /-- STEP.I, a step of round 4 (R148). -/
  | stepI (i : StepIdx)
  /-- FOLD (R149). -/
  | fold
  /-- RD, a host read of one byte; the DATA field of its word is ignored (R86, R161; log entry 12). -/
  | rd (addr : Addr)
  /-- WR, a host write of one byte (R162). -/
  | wr (addr : Addr) (data : Byte)
  /-- NOP, the command `0x00` (R165). -/
  | nop
  /-- INIT, the command `0x01` (R166). -/
  | init
  /-- START, the command `0x02` (R167). -/
  | start
deriving DecidableEq, Repr

/-- The two kinds of word the hardware decodes (R80): the step counter (format S, R81) and the bus transaction word
(format B, R86). -/
inductive InstrWord where
  | step (w : StepIdx)
  | bus (w : BitVec 16)
deriving DecidableEq, Repr

end Sys2Proof
end

