-- ==== Sys2Proof/Machine/Dispatch.lean ====
section
/-! DEFINITION. The one match from an instruction to its meaning. -/

namespace Sys2Proof.Machine

def exec (i : Instr) (s : State) : Host.Outcome State Fault Refusal :=
  match i with
  -- format S, the core sequencer
  | .stepF k => Sys2Proof.Machine.execStepF k s
  | .stepG k => Sys2Proof.Machine.execStepG k s
  | .stepH k => Sys2Proof.Machine.execStepH k s
  | .stepI k => Sys2Proof.Machine.execStepI k s
  | .fold => Sys2Proof.Machine.execFold s
  -- format B, the host
  | .rd addr => Sys2Proof.Machine.execRd addr s
  | .wr addr data => Sys2Proof.Machine.execWr addr data s
  | .nop => Sys2Proof.Machine.execNop s
  | .init => Sys2Proof.Machine.execInit s
  | .start => Sys2Proof.Machine.execStart s

end Sys2Proof.Machine
end

