-- ==== Sys2Proof/WellFormed.lean ====
section
/-! DEFINITION. Which terms of `Instr` name an operation in the notation of 30_encoding.md: a STEP's index lies in its own
round (R95), and a WR that is a command word is named by the command (R87: the most specific row first). -/

namespace Sys2Proof

/-- The well-formed instructions. `STEP.G 3` names no operation (R95), and the words `0xD000`, `0xD001` and `0xD002` are
NOP, INIT and START rather than WR (R87). -/
def Instr.wf : Instr → Bool
  | .stepF i => decide (i.toNat ≤ 15)
  | .stepG i => decide (16 ≤ i.toNat ∧ i.toNat ≤ 31)
  | .stepH i => decide (32 ≤ i.toNat ∧ i.toNat ≤ 47)
  | .stepI i => decide (48 ≤ i.toNat ∧ i.toNat ≤ 63)
  | .wr addr data => !(addr == 0x50#7 && decide (data.toNat ≤ 2))
  | .fold => true
  | .rd _ => true
  | .nop => true
  | .init => true
  | .start => true

end Sys2Proof
end

