-- ==== Sys2Proof/Decode.lean ====
section
/-! DEFINITION. The decoder and the encoder, from the encoding tables of 30_encoding.md: R81, R82 and R85 for the step
index, R86, R87 and R89 for the bus word. -/

namespace Sys2Proof

/-- Why a word selects no operation. -/
inductive DecodeError where
  /-- A step counter value in `0x41`..`0x7F` (R85); the only reserved words there are. -/
  | reservedStepWord
deriving DecidableEq, Repr

/-- Field RND with bit FOLD above it, `i[6:4]` (R81, R82). -/
def stepSelect (w : StepIdx) : BitVec 3 := w.extractLsb' 4 3

/-- Operation selection for format S (R82); the values of R85 are refused by name. -/
def decodeStep (w : StepIdx) : Except DecodeError Instr :=
  if stepSelect w = 0b000#3 then .ok (.stepF w)
  else if stepSelect w = 0b001#3 then .ok (.stepG w)
  else if stepSelect w = 0b010#3 then .ok (.stepH w)
  else if stepSelect w = 0b011#3 then .ok (.stepI w)
  else if w = 0b1000000#7 then .ok .fold
  else .error .reservedStepWord

/-- Field W of a bus word (R86): 1 is a write. -/
def busWrite (w : BitVec 16) : Bool := w.getLsbD 15

/-- Field ADDR of a bus word (R86). -/
def busAddr (w : BitVec 16) : Addr := w.extractLsb' 8 7

/-- Field DATA of a bus word (R86). -/
def busData (w : BitVec 16) : Byte := w.extractLsb' 0 8

/-- Operation selection for format B (R87), the most specific row first. Every word is legal (R89). -/
def decodeBus (w : BitVec 16) : Instr :=
  if w = 0xD000#16 then .nop
  else if w = 0xD001#16 then .init
  else if w = 0xD002#16 then .start
  else if busWrite w then .wr (busAddr w) (busData w)
  else .rd (busAddr w)

/-- The decoder of both kinds of word (R80). -/
def decode : InstrWord → Except DecodeError Instr
  | .step w => decodeStep w
  | .bus w => .ok (decodeBus w)

/-- A bus word from its fields, `W`, `ADDR`, `DATA` from bit 15 down (R86). -/
def busWord (we : Bool) (addr : Addr) (data : Byte) : BitVec 16 :=
  BitVec.ofBool we ++ addr ++ data

/-- The word of a well-formed instruction (R82, R87); a RD carries 0 in its ignored DATA field (R86). -/
def encode : Instr → InstrWord
  | .stepF i => .step i
  | .stepG i => .step i
  | .stepH i => .step i
  | .stepI i => .step i
  | .fold => .step 0b1000000#7
  | .rd addr => .bus (busWord false addr 0x00#8)
  | .wr addr data => .bus (busWord true addr data)
  | .nop => .bus (busWord true 0x50#7 0x00#8)
  | .init => .bus (busWord true 0x50#7 0x01#8)
  | .start => .bus (busWord true 0x50#7 0x02#8)

/-- The instruction read from a word of the opcode table: a row of 7 bits (one whole byte) is a step word, a row of 16
bits a bus word. A byte with bit 7 set is no 7-bit step word. -/
def decodeTableWord (nbits w : Nat) : Option Instr :=
  if nbits ≤ 8 then
    if w < 128 then (decode (.step (BitVec.ofNat 7 w))).toOption else none
  else
    if w < 65536 then (decode (.bus (BitVec.ofNat 16 w))).toOption else none

end Sys2Proof
end

