-- ==== Sys2Proof/Machine/Fetch.lean ====
section
/-! DEFINITION. Which agent moves next, and with which word (00_scope.md R6, 43_compression_core.md R150, 60_exceptions.md
R197). The next sample of the input ports decides it (log entries 1 and 2). -/

namespace Sys2Proof.Machine

/-- What the next transition is. -/
inductive Action where
  /-- The reset transition (R210). -/
  | reset
  /-- One bus transaction with its 16-bit word (R86). -/
  | transaction (w : BitVec 16)
  /-- The sequencer's operation; its word is the step counter (R80, R150). -/
  | operation (w : StepIdx)
  /-- It is the sequencer's turn and `busy = 0`: no transition, the core is idle (R150, R206). -/
  | idle
deriving DecidableEq, Repr

/-- The sample of the input ports that counts now: the oldest one to come, or all pins at 0 when none is left. -/
def samplePorts (s : State) : Ports := s.inputs.headD Ports.idle

/-- The sample presents neither reset nor a transaction: the sequencer may move. -/
def sequencerTurn (p : Ports) : Bool := !p.rst && !p.sel

/-- The transition that a state takes. Reset wins over a transaction presented with it and over the sequencer (R197,
R210). -/
def nextAction (s : State) : Action :=
  let p := samplePorts s
  if p.rst then .reset
  else if p.sel then .transaction (busWord p.we p.addr p.wdata)
  else if s.busy then .operation s.i
  else .idle

/-- The sample has been used. -/
def advance (s : State) : State := { s with inputs := s.inputs.tail }

/-- The sample of the ports that presents a given bus word (R86, R160). -/
def busSample (w : BitVec 16) : Ports := ⟨false, true, busWrite w, busAddr w, busData w⟩

end Sys2Proof.Machine
end

