-- ==== Sys2Proof/Machine/Sequencer.lean ====
section
/-! DEFINITION. Taking the chosen transition: decode the word and run the instruction, or reset, or stay idle. -/

namespace Sys2Proof.Machine

/-- Decodes a word and runs what it says; a step counter that selects no operation leaves the sequencer stuck (30_encoding.md
R85). -/
def runWord (w : InstrWord) (s : State) : Host.Outcome State Fault Refusal :=
  match decode w with
  | .ok i => exec i s
  | .error .reservedStepWord => .fault .sequencerStuck

/-- One transition of a given kind. -/
def takeAction (a : Action) (s : State) : Host.Outcome State Fault Refusal :=
  match a with
  | .reset => .next (resetTransition s)
  | .transaction w => runWord (.bus w) s
  | .operation w => runWord (.step w) s
  | .idle => .next s

end Sys2Proof.Machine
end

