-- ==== Sys2Proof/Machine/Step.lean ====
section
/-! DEFINITION. One step of the machine: one transition of one agent, chosen by the next sample of the input ports. -/

namespace Sys2Proof.Machine

/-- One transition (20_memory.md R59, R62): use up the next sample of the ports and do what it says. -/
def step (s : State) : Host.Outcome State Fault Refusal := takeAction (nextAction s) (advance s)

/-- `s` with one word placed so that the very next step runs it (log entry 10): a bus word is presented on the ports; a
step word is put into the counter of a busy core, which is then given its turn. -/
def State.withFetchWord (s : State) (nbits w : Nat) : State :=
  if nbits ≤ 8 then { s with i := BitVec.ofNat 7 w, busy := true, inputs := Ports.idle :: s.inputs }
  else { s with inputs := busSample (BitVec.ofNat 16 w) :: s.inputs }

end Sys2Proof.Machine
end

