-- ==== Sys2Proof/Machine/Compress.lean ====
section
/-! DEFINITION. What a block computation amounts to: STEPVAL and COMPRESS1 as functions of a chaining value and a block
(43_compression_core.md R143, R151, R152). Nothing in the step calls this file: statements compare the machine with it. -/

namespace Sys2Proof.Machine

/-- STEPVAL (R143): the value a step computes, with the round function and the schedule index chosen by the multiplexers
of R135 and R122. -/
def stepVal (i : StepIdx) (w : Quad) (blk : BitVec 6 → Byte) : Word :=
  add32 (rotl32 (sum4 (roundMux (roundIdx i) w.b w.c w.d) w.a (kConst i) (unpack blk (sched i)))
    (rotAmount (roundIdx i) (colIdx i))) w.b

/-- The working registers after step `i` (R144, R151). -/
def stepQuad (i : StepIdx) (w : Quad) (blk : BitVec 6 → Byte) : Quad := ⟨w.d, stepVal i w blk, w.b, w.c⟩

/-- `w_n` of R151: the working registers after the first `n` steps of a block. -/
def workAfter (h : Quad) (blk : BitVec 6 → Byte) : Nat → Quad
  | 0 => h
  | n + 1 => stepQuad (BitVec.ofNat 7 n) (workAfter h blk n) blk

/-- COMPRESS1 (R151). -/
def compress1 (h : Quad) (blk : BitVec 6 → Byte) : Quad := addQuad h (workAfter h blk 64)

/-- The chained result of a sequence of blocks (R152). -/
def chain (h : Quad) (bs : List (BitVec 6 → Byte)) : Quad := bs.foldl compress1 h

end Sys2Proof.Machine
end

