-- ==== Sys2Proof/Machine/HostReference.lean ====
section
/-! DEFINITION. Host-side reference functions, not hardware (45_padder_finalizer.md R180): the Padder, the Finalizer and the
digest, and the host's driving sequences as samples of the ports (30_encoding.md R93, R94; 44_host_commands.md R169).
Nothing in the step calls this file (log entry 13). -/

namespace Sys2Proof.Machine

/-- LE64: the 8 bytes of a length modulo 2^64, least significant first (R181). -/
def le64 (n : Nat) : List Byte := (List.range 8).map fun j => (BitVec.ofNat 64 n).extractLsb' (8 * j) 8

/-- `z`, the number of zero bytes of the padding, `(55 - L) mod 64` (R181); 64 is added to stay a natural number. -/
def padZeros (len : Nat) : Nat := (55 + (64 - len % 64)) % 64

/-- PAD (R181): the message, the byte `0x80`, `z` zero bytes, and the length in bits modulo 2^64. -/
def pad (m : List Byte) : List Byte :=
  m ++ 0x80#8 :: List.replicate (padZeros m.length) 0x00#8 ++ le64 (8 * m.length)

/-- A list of bytes as a block: byte `p` of the list is `BLK[p]` (R184). -/
def blockView (bs : List Byte) (n : BitVec 6) : Byte := bs.getD n.toNat 0

/-- The first `n` blocks of 64 bytes of a buffer, in order (R184). -/
def cutBlocks : Nat → List Byte → List (List Byte)
  | 0, _ => []
  | n + 1, bs => bs.take 64 :: cutBlocks n (bs.drop 64)

/-- The blocks of the padded message (R184). -/
def messageBlocks (m : List Byte) : List (List Byte) := cutBlocks ((pad m).length / 64) (pad m)

/-- The 4 bytes of a word, least significant first (R51). -/
def wordBytes (w : Word) : List Byte := (List.range 4).map fun n => w.extractLsb' (8 * n) 8

/-- The 16 digest bytes of a State: A, B, C, D in that order, each least significant byte first (R183). -/
def stateBytes (q : Quad) : List Byte := wordBytes q.a ++ wordBytes q.b ++ wordBytes q.c ++ wordBytes q.d

/-- A lowercase hexadecimal digit (R183). -/
def hexDigit (n : Nat) : Char :=
  ['0', '1', '2', '3', '4', '5', '6', '7', '8', '9', 'a', 'b', 'c', 'd', 'e', 'f'].getD n '0'

/-- FINALIZE (R183): two digits a byte, high nibble first; the 32 characters as a list. -/
def finalize (q : Quad) : List Char :=
  (stateBytes q).flatMap fun b => [hexDigit (b.toNat / 16), hexDigit (b.toNat % 16)]

/-- The State after all blocks of a message (R184). -/
def digestState (m : List Byte) : Quad := chain ivQuad ((messageBlocks m).map blockView)

/-- DIGEST (R184). -/
def digest (m : List Byte) : List Char := finalize (digestState m)

/-- `wr addr, data` (R93). -/
def wr (addr : Addr) (data : Byte) : Ports := busSample (busWord true addr data)

/-- `rd addr` (R93). -/
def rd (addr : Addr) : Ports := busSample (busWord false addr 0x00#8)

/-- `init` (R94). -/
def initSample : Ports := wr ctrlAddr 0x01#8

/-- `start` (R94). -/
def startSample : Ports := wr ctrlAddr 0x02#8

/-- One read of the `wait` loop (R94). -/
def statusSample : Ports := rd statusAddr

/-- The writes of `ldblk` from address `n` on, in ascending address order (R94). -/
def ldblkFrom : Nat → List Byte → List Ports
  | _, [] => []
  | n, b :: bs => wr (BitVec.ofNat 7 n) b :: ldblkFrom (n + 1) bs

/-- `ldblk b0 .. b63` (R94). -/
def ldblk (bs : List Byte) : List Ports := ldblkFrom 0 bs

/-- `rdstate`: the 16 bytes of the STATE window in ascending address order (R94). -/
def rdstate : List Ports := (List.range 16).map fun n => rd (BitVec.ofNat 7 (0x40 + n))

/-- A `wait` as it may happen: reads of STATUS interleaved with turns of the sequencer, with enough turns for the block to
finish (R94, R150). -/
def isWait (es : List Ports) : Prop :=
  (∀ p ∈ es, p = Ports.idle ∨ p = statusSample) ∧ 65 ≤ es.countP sequencerTurn

/-- `hashblk` (R94), with the `wait` as it happened. -/
def hashblk (bs : List Byte) (wait : List Ports) : List Ports := ldblk bs ++ startSample :: wait

end Sys2Proof.Machine
end

