-- ==== Sys2Proof/Safety.lean ====
section
/-! DEFINITION. What claims are stated in: runs of several steps, the hardware state apart from the ports, the invariant of
10_state.md R40, and the host errors of 60_exceptions.md R191 and R192. -/

namespace Sys2Proof.Machine

/-- `n` steps, stopping at the first that does not answer a next state. -/
def run : Nat → State → Host.Outcome State Fault Refusal
  | 0, s => .next s
  | n + 1, s =>
    match step s with
    | .next t => run n t
    | .fault f => .fault f
    | .refused r => .refused r

/-- Two states hold the same hardware state of R20: the registers, the counter, BUSY and every byte of BLK as it reads. -/
def sameHardware (s t : State) : Prop :=
  s.h = t.h ∧ s.w = t.w ∧ s.i = t.i ∧ s.busy = t.busy ∧ ∀ n, blkByte s n = blkByte t n

/-- The invariant: the block buffer is in canonical form, an idle core has its counter at 0, and a busy core has it in
0..64 (R25, R40). -/
def Inv (s : State) : Prop :=
  Memory.wf s.blk = true ∧ (s.busy = false → s.i = 0#7) ∧ (s.busy = true → s.i.toNat ≤ 64)

/-- The states a run from reset can reach, whatever the ports bring. -/
inductive Reachable : State → Prop where
  | reset (ins : List Ports) : Reachable { State.reset with inputs := ins }
  | step (s t : State) : Reachable s → step s = .next t → Reachable t

/-- The host errors that the state shows, out of the last six rows of R191. The sixth, a missing INIT between messages, is
not among them: only the host knows where a message begins (R27). -/
inductive HostError where
  /-- A value other than 0, 1, 2 written to CTRL (R92). -/
  | reservedCommand
  /-- An access to `0x52`..`0x7F` (R56). -/
  | unmappedAccess
  /-- A write to the STATE window or to STATUS (R55). -/
  | readOnlyWrite
  /-- A write while `busy = 1` (R214). -/
  | writeWhileBusy
  /-- START while some byte of BLK has not been written since the last reset (R216). -/
  | startUnwritten
deriving DecidableEq, Repr

/-- The ghost mark R192 offers: which host errors a transaction makes in a state. It is no hardware state and no meaning
reads it. -/
def hostErrors (s : State) (write : Bool) (addr : Addr) (data : Byte) : List HostError :=
  (if write && s.busy then [.writeWhileBusy] else []) ++
  (if write && addr == ctrlAddr && decide (2 < data.toNat) then [.reservedCommand] else []) ++
  (if decide (0x52 ≤ addr.toNat) then [.unmappedAccess] else []) ++
  (if write && decide (0x40 ≤ addr.toNat) && decide (addr.toNat ≤ 0x51) && !(addr == ctrlAddr)
    then [.readOnlyWrite] else []) ++
  (if write && addr == ctrlAddr && data == 0x02#8 && !s.busy && decide (s.blk.length < 64)
    then [.startUnwritten] else [])

end Sys2Proof.Machine
end

