-- ==== Sys2Proof/Certificates/Slice0/Obligations.lean ====
section
/-! DEFINITION. The statements for the provers, from the numbered rules of spec/. -/

open Sys2Proof Sys2Proof.Machine

/-! ### Encodings -/

/-- Format S and format B (R82, R86, R87): every operand at every value the encoding admits. -/
def Obligations.DecodeOfEncode : Prop :=
  ∀ i : Instr, i.wf = true → decode (encode i) = .ok i

/-- The other direction: a word that decodes is the word of what it decodes to, but that a RD's ignored DATA field (R86)
is encoded as 0 (log entry 12). -/
def Obligations.EncodeOfDecode : Prop :=
  (∀ (w : StepIdx) (i : Instr), decode (.step w) = .ok i → i.wf = true ∧ encode i = .step w) ∧
  (∀ (w : BitVec 16) (i : Instr), decode (.bus w) = .ok i →
    i.wf = true ∧ ((∀ a, i ≠ .rd a) → encode i = .bus w) ∧
    (∀ a, i = .rd a → encode i = .bus (w &&& 0xFF00#16)))

/-- R82, row by row. -/
def Obligations.StepWordSelectsOperation : Prop :=
  ∀ w : StepIdx,
    (w.toNat / 16 = 0 → decode (.step w) = .ok (.stepF w)) ∧
    (w.toNat / 16 = 1 → decode (.step w) = .ok (.stepG w)) ∧
    (w.toNat / 16 = 2 → decode (.step w) = .ok (.stepH w)) ∧
    (w.toNat / 16 = 3 → decode (.step w) = .ok (.stepI w)) ∧
    (w.toNat = 0x40 → decode (.step w) = .ok .fold) ∧
    (0x41 ≤ w.toNat → decode (.step w) = .error .reservedStepWord)

/-- R87, row by row: the words are written as the fields `W`, `ADDR`, `DATA` of R86. -/
def Obligations.BusWordSelectsTransaction : Prop :=
  ∀ (a : Addr) (d : Byte),
    decode (.bus (0#1 ++ a ++ d)) = .ok (.rd a) ∧
    (¬ (a = 0x50#7 ∧ d.toNat ≤ 2) → decode (.bus (1#1 ++ a ++ d)) = .ok (.wr a d)) ∧
    decode (.bus (1#1 ++ 0x50#7 ++ 0x00#8)) = .ok .nop ∧
    decode (.bus (1#1 ++ 0x50#7 ++ 0x01#8)) = .ok .init ∧
    decode (.bus (1#1 ++ 0x50#7 ++ 0x02#8)) = .ok .start

/-- R89: there is no illegal bus word, in any state. -/
def Obligations.EveryBusWordCompletes : Prop :=
  ∀ (w : BitVec 16) (s : State), ∃ i t, decode (.bus w) = .ok i ∧ exec i s = .next t

/-- A few words written out from the spec's encodings (R84, R94; sanity). -/
def Obligations.SpecWordsDecode : Prop :=
  decode (.step 0b0000000#7) = .ok (.stepF 0#7) ∧ decode (.step 0b0010011#7) = .ok (.stepG 19#7) ∧
  decode (.step 0b0101111#7) = .ok (.stepH 47#7) ∧ decode (.step 0b0111111#7) = .ok (.stepI 63#7) ∧
  decode (.step 0b1000000#7) = .ok .fold ∧ decode (.bus 0x5100#16) = .ok (.rd 0x51#7) ∧
  decode (.bus 0xB818#16) = .ok (.wr 56#7 0x18#8) ∧ decode (.bus 0xD000#16) = .ok .nop ∧
  decode (.bus 0xD001#16) = .ok .init ∧ decode (.bus 0xD002#16) = .ok .start

/-! ### The step -/

/-- A step runs the decoded instruction on the state whose port sample has been used up (log entry 1). -/
def Obligations.StepRunsDecodedWord : Prop :=
  ∀ (s : State) (i : Instr),
    (∀ w, nextAction s = .transaction w → decode (.bus w) = .ok i → step s = exec i (advance s)) ∧
    (∀ w, nextAction s = .operation w → decode (.step w) = .ok i → step s = exec i (advance s))

/-- A placed word is what the very next step runs (the model's own interface, log entry 10). -/
def Obligations.PlacedWordRunsNext : Prop :=
  ∀ (s : State) (i : Instr),
    (∀ w : BitVec 16, decode (.bus w) = .ok i → step (s.withFetchWord 16 w.toNat) = exec i s) ∧
    (∀ w : StepIdx, decode (.step w) = .ok i →
      step (s.withFetchWord 8 w.toNat) = exec i { s with i := w, busy := true })

/-- Which agent moves (R150, R197, R210), chosen by the next sample of the ports as log entries 1 and 2 say. -/
def Obligations.PortsChooseTheTransition : Prop :=
  ∀ s : State,
    (∀ p rest, s.inputs = p :: rest →
      (p.rst = true → step s = .next (resetTransition { s with inputs := rest })) ∧
      (p.rst = false → p.sel = true →
        nextAction s = .transaction (BitVec.ofBool p.we ++ p.addr ++ p.wdata))) ∧
    (((∃ p rest, s.inputs = p :: rest ∧ p.rst = false ∧ p.sel = false) ∨ s.inputs = []) →
      (s.busy = true → nextAction s = .operation s.i) ∧
      (s.busy = false → step s = .next { s with inputs := s.inputs.tail }))

/-! ### The operations of the sequencer -/

/-- R145. -/
def Obligations.StepFResult : Prop :=
  ∀ (i : StepIdx) (s : State), s.busy = true → s.i = i → i.toNat ≤ 15 →
    decode (.step i) = .ok (.stepF i) ∧
    exec (.stepF i) s = .next { s with
      w := ⟨s.w.d,
            ((s.w.b &&& s.w.c ||| ~~~s.w.b &&& s.w.d) + s.w.a + kConst i
              + msgWord s (BitVec.ofNat 4 i.toNat)).rotateLeft ([7, 12, 17, 22].getD (i.toNat % 4) 0) + s.w.b,
            s.w.b, s.w.c⟩,
      i := BitVec.ofNat 7 (i.toNat + 1) }

/-- R146. -/
def Obligations.StepGResult : Prop :=
  ∀ (i : StepIdx) (s : State), s.busy = true → s.i = i → 16 ≤ i.toNat → i.toNat ≤ 31 →
    decode (.step i) = .ok (.stepG i) ∧
    exec (.stepG i) s = .next { s with
      w := ⟨s.w.d,
            ((s.w.b &&& s.w.d ||| s.w.c &&& ~~~s.w.d) + s.w.a + kConst i
              + msgWord s (BitVec.ofNat 4 ((5 * i.toNat + 1) % 16))).rotateLeft
                ([5, 9, 14, 20].getD (i.toNat % 4) 0) + s.w.b,
            s.w.b, s.w.c⟩,
      i := BitVec.ofNat 7 (i.toNat + 1) }

/-- R147. -/
def Obligations.StepHResult : Prop :=
  ∀ (i : StepIdx) (s : State), s.busy = true → s.i = i → 32 ≤ i.toNat → i.toNat ≤ 47 →
    decode (.step i) = .ok (.stepH i) ∧
    exec (.stepH i) s = .next { s with
      w := ⟨s.w.d,
            ((s.w.b ^^^ s.w.c ^^^ s.w.d) + s.w.a + kConst i
              + msgWord s (BitVec.ofNat 4 ((3 * i.toNat + 5) % 16))).rotateLeft
                ([4, 11, 16, 23].getD (i.toNat % 4) 0) + s.w.b,
            s.w.b, s.w.c⟩,
      i := BitVec.ofNat 7 (i.toNat + 1) }

/-- R148. -/
def Obligations.StepIResult : Prop :=
  ∀ (i : StepIdx) (s : State), s.busy = true → s.i = i → 48 ≤ i.toNat → i.toNat ≤ 63 →
    decode (.step i) = .ok (.stepI i) ∧
    exec (.stepI i) s = .next { s with
      w := ⟨s.w.d,
            ((s.w.c ^^^ (s.w.b ||| ~~~s.w.d)) + s.w.a + kConst i
              + msgWord s (BitVec.ofNat 4 (7 * i.toNat % 16))).rotateLeft
                ([6, 10, 15, 21].getD (i.toNat % 4) 0) + s.w.b,
            s.w.b, s.w.c⟩,
      i := BitVec.ofNat 7 (i.toNat + 1) }

/-- R149. -/
def Obligations.FoldResult : Prop :=
  decode (.step 0x40#7) = .ok .fold ∧
  ∀ s : State, s.busy = true → s.i = 64#7 →
    exec .fold s = .next { s with
      h := ⟨s.h.a + s.w.a, s.h.b + s.w.b, s.h.c + s.w.c, s.h.d + s.w.d⟩, i := 0#7, busy := false }

/-- What STEP.F, STEP.G, STEP.H and STEP.I leave unchanged (R145 to R148). Their destinations are the four working
registers and the counter; none stores to memory. -/
def Obligations.StepFrame : Prop :=
  ∀ (k : StepIdx) (ins : Instr) (s t : State),
    ins = .stepF k ∨ ins = .stepG k ∨ ins = .stepH k ∨ ins = .stepI k → exec ins s = .next t →
    t.h = s.h ∧ t.busy = s.busy ∧ (∀ n, blkByte t n = blkByte s n) ∧ t.inputs = s.inputs ∧
    t.returned = s.returned ∧ t.resets = s.resets

/-- What FOLD leaves unchanged (R149): its destinations are the chaining registers, the counter and BUSY. -/
def Obligations.FoldFrame : Prop :=
  ∀ s t : State, exec .fold s = .next t →
    t.w = s.w ∧ (∀ n, blkByte t n = blkByte s n) ∧ t.inputs = s.inputs ∧ t.returned = s.returned ∧
    t.resets = s.resets

/-- The four separate operations are one datapath (R143, R144): whichever operation the counter selects computes STEPVAL
through the multiplexers and rotates the registers. -/
def Obligations.StepsComputeStepval : Prop :=
  ∀ s : State, s.busy = true → s.i.toNat ≤ 63 →
    ∃ ins, decode (.step s.i) = .ok ins ∧
      exec ins s = .next { s with
        w := ⟨s.w.d, stepVal s.i s.w (blkByte s), s.w.b, s.w.c⟩, i := BitVec.ofNat 7 (s.i.toNat + 1) }

/-- A step can be undone, and so it is a bijection on the working registers (R154, which the spec derives from R140 to
R144). -/
def Obligations.StepIsBijection : Prop :=
  (∀ (s t : State) (ins : Instr), s.i.toNat ≤ 63 → decode (.step s.i) = .ok ins → exec ins s = .next t →
    s.w.b = t.w.c ∧ s.w.c = t.w.d ∧ s.w.d = t.w.a ∧
    s.w.a = (t.w.b - s.w.b).rotateRight (rotAmount (roundIdx s.i) (colIdx s.i)).toNat
      - roundMux (roundIdx s.i) t.w.c t.w.d t.w.a - kConst s.i - msgWord t (sched s.i)) ∧
  (∀ (i : StepIdx) (blk : BitVec 6 → Byte), i.toNat ≤ 63 → Function.Bijective fun w => stepQuad i w blk)

/-- Where a sequencer operation that is not enabled stops: the `require` lines of R145 to R149, as the model answers
them (log entry 8, the model's choice). -/
def Obligations.NotEnabledStops : Prop :=
  ∀ (k : StepIdx) (s : State),
    (s.busy = false ∨ s.i ≠ k →
      exec (.stepF k) s = .fault .notEnabled ∧ exec (.stepG k) s = .fault .notEnabled ∧
      exec (.stepH k) s = .fault .notEnabled ∧ exec (.stepI k) s = .fault .notEnabled) ∧
    (s.busy = false ∨ s.i ≠ 64#7 → exec .fold s = .fault .notEnabled)

/-- The reserved counter values select nothing, and no run reaches them (R85, which the spec derives from R26 and
R40); that the step stops at them by name is log entry 9. -/
def Obligations.ReservedCounterUnreachable : Prop :=
  (∀ s : State, s.busy = true → 65 ≤ s.i.toNat → sequencerTurn (samplePorts s) = true →
    step s = .fault .sequencerStuck) ∧
  (∀ s : State, Reachable s → s.i.toNat ≤ 64)

/-! ### The host's transactions -/

/-- R161 with the map of R54. -/
def Obligations.RdResult : Prop :=
  ∀ (a : Addr) (s : State), ∃ v : Byte,
    exec (.rd a) s = .next { s with returned := s.returned ++ [v] } ∧
    (a.toNat ≤ 0x3F → v = blkByte s (BitVec.ofNat 6 a.toNat)) ∧
    (0x40 ≤ a.toNat → a.toNat ≤ 0x4F →
      v = BitVec.ofNat 8 (([s.h.a, s.h.b, s.h.c, s.h.d].getD ((a.toNat - 0x40) / 4) 0).toNat
        / 2 ^ (8 * ((a.toNat - 0x40) % 4)))) ∧
    (a.toNat = 0x51 → v = if s.busy then 0x01#8 else 0x00#8) ∧
    (a.toNat = 0x50 ∨ 0x52 ≤ a.toNat → v = 0x00#8)

/-- What RD leaves unchanged: everything but the byte on the port (R60, R161). -/
def Obligations.RdFrame : Prop :=
  ∀ (a : Addr) (s t : State), exec (.rd a) s = .next t →
    sameHardware s t ∧ t.blk = s.blk ∧ t.inputs = s.inputs ∧ t.resets = s.resets ∧ memRead t = memRead s

/-- R162 with the cases of R55. -/
def Obligations.WrResult : Prop :=
  ∀ (a : Addr) (v : Byte) (s : State),
    (s.busy = true → exec (.wr a v) s = .next s) ∧
    (s.busy = false → a.toNat ≤ 0x3F → ∃ m,
      exec (.wr a v) s = .next { s with blk := m } ∧
      ∀ n : BitVec 6, blkByte { s with blk := m } n = if n.toNat = a.toNat then v else blkByte s n) ∧
    (s.busy = false → a.toNat = 0x50 →
      exec (.wr a v) s =
        if v = 0x00#8 then exec .nop s
        else if v = 0x01#8 then exec .init s
        else if v = 0x02#8 then exec .start s
        else .next s) ∧
    (0x40 ≤ a.toNat → a.toNat ≠ 0x50 → exec (.wr a v) s = .next s)

/-- What WR leaves unchanged. It stores to its own address `a`, when that is one of BLK; through CTRL, INIT writes `H`,
and START writes `W`, the counter and BUSY. -/
def Obligations.WrFrame : Prop :=
  ∀ (a : Addr) (v : Byte) (s t : State), exec (.wr a v) s = .next t →
    (∀ n : BitVec 6, n.toNat ≠ a.toNat → blkByte t n = blkByte s n) ∧
    (¬ (a = 0x50#7 ∧ v = 0x01#8) → t.h = s.h) ∧
    (¬ (a = 0x50#7 ∧ v = 0x02#8) → t.w = s.w ∧ t.i = s.i ∧ t.busy = s.busy) ∧
    t.inputs = s.inputs ∧ t.returned = s.returned ∧ t.resets = s.resets

/-- R30, R31, R92 and R163: what each value written to CTRL does, and that CTRL stores nothing. -/
def Obligations.CtrlWritesAreCommands : Prop :=
  ∀ (v : Byte) (s : State),
    exec (.rd 0x50#7) s = .next { s with returned := s.returned ++ [0x00#8] } ∧
    (s.busy = true → exec (.wr 0x50#7 v) s = .next s) ∧
    (s.busy = false →
      (v = 0x00#8 → exec (.wr 0x50#7 v) s = exec .nop s) ∧
      (v = 0x01#8 → exec (.wr 0x50#7 v) s = exec .init s) ∧
      (v = 0x02#8 → exec (.wr 0x50#7 v) s = exec .start s) ∧
      (v.extractLsb' 2 6 ≠ 0#6 ∨ v.extractLsb' 0 2 = 0b11#2 → exec (.wr 0x50#7 v) s = .next s))

/-- R165. -/
def Obligations.NopResult : Prop :=
  decode (.bus 0xD000#16) = .ok .nop ∧ ∀ s : State, exec .nop s = .next s

/-- R166. -/
def Obligations.InitResult : Prop :=
  decode (.bus 0xD001#16) = .ok .init ∧
  ∀ s : State,
    (s.busy = false → exec .init s = .next { s with
      h := ⟨0x67452301#32, 0xEFCDAB89#32, 0x98BADCFE#32, 0x10325476#32⟩ }) ∧
    (s.busy = true → exec .init s = .next s) ∧
    (∀ t, exec .init s = .next t → exec .init t = .next t)

/-- R167. -/
def Obligations.StartResult : Prop :=
  decode (.bus 0xD002#16) = .ok .start ∧
  ∀ s : State,
    (s.busy = false → exec .start s = .next { s with w := s.h, i := 0#7, busy := true }) ∧
    (s.busy = true → exec .start s = .next s)

/-- What the commands leave unchanged (R165, R166, R167): INIT writes `H` alone, START writes `W`, the counter and BUSY,
and none stores to BLK. -/
def Obligations.CommandFrame : Prop :=
  ∀ s t : State,
    (exec .nop s = .next t → t = s) ∧
    (exec .init s = .next t → t.w = s.w ∧ t.i = s.i ∧ t.busy = s.busy) ∧
    (exec .start s = .next t → t.h = s.h) ∧
    (exec .init s = .next t ∨ exec .start s = .next t →
      (∀ n, blkByte t n = blkByte s n) ∧ t.inputs = s.inputs ∧ t.returned = s.returned ∧ t.resets = s.resets)

/-- R164: the host is locked out while BUSY is set, and only reset gets out. -/
def Obligations.BusyLocksHost : Prop :=
  ∀ s : State, s.busy = true →
    (∀ w : BitVec 16, w.getLsbD 15 = true → exec (decodeBus w) s = .next s) ∧
    (∀ w : BitVec 16, w.getLsbD 15 = false →
      ∃ v, exec (decodeBus w) s = .next { s with returned := s.returned ++ [v] }) ∧
    ((samplePorts s).rst = true → ∃ t, step s = .next t ∧ t.busy = false)

/-- R56: nothing behind an unmapped or read-only address, and no fault. -/
def Obligations.UnmappedAndReadOnly : Prop :=
  ∀ (a : Addr) (v : Byte) (s : State),
    (0x52 ≤ a.toNat → exec (.rd a) s = .next { s with returned := s.returned ++ [0x00#8] }) ∧
    (0x52 ≤ a.toNat ∨ (0x40 ≤ a.toNat ∧ a.toNat ≤ 0x4F) ∨ a.toNat = 0x51 → exec (.wr a v) s = .next s)

/-- R32. -/
def Obligations.StatusRegister : Prop :=
  (∀ (s : State) (v : Byte),
    exec (.rd 0x51#7) s = .next { s with returned := s.returned ++ [0b0000000#7 ++ BitVec.ofBool s.busy] } ∧
    exec (.wr 0x51#7 v) s = .next s) ∧
  memRead State.reset 0x51#7 = 0x00#8

/-- R33. -/
def Obligations.StateWindow : Prop :=
  (∀ (s : State) (j n : Nat) (v : Byte), j < 4 → n < 4 →
    exec (.rd (BitVec.ofNat 7 (0x40 + 4 * j + n))) s = .next { s with
      returned := s.returned ++ [([s.h.a, s.h.b, s.h.c, s.h.d].getD j 0).extractLsb' (8 * n) 8] } ∧
    exec (.wr (BitVec.ofNat 7 (0x40 + 4 * j + n)) v) s = .next s) ∧
  (List.range 16).map (fun n => memRead State.reset (BitVec.ofNat 7 (0x40 + n))) =
    [0x01#8, 0x23#8, 0x45#8, 0x67#8, 0x89#8, 0xAB#8, 0xCD#8, 0xEF#8,
     0xFE#8, 0xDC#8, 0xBA#8, 0x98#8, 0x76#8, 0x54#8, 0x32#8, 0x10#8]

/-- R52, which the spec derives from R51, bit by bit. -/
def Obligations.ByteWriteChangesItsBits : Prop :=
  ∀ (a : Addr) (v : Byte) (s t : State), s.busy = false → a.toNat ≤ 0x3F → exec (.wr a v) s = .next t →
    ∀ (j : BitVec 4) (b : Nat), b < 32 →
      (msgWord t j).getLsbD b =
        if j.toNat = a.toNat / 4 ∧ b / 8 = a.toNat % 4 then v.getLsbD (b % 8) else (msgWord s j).getLsbD b

/-- R120: the little-endian word unpacker, as the sum the rule gives. -/
def Obligations.BlockWordLittleEndian : Prop :=
  ∀ (s : State) (j : Nat), j < 16 →
    (msgWord s (BitVec.ofNat 4 j)).toNat =
      (blkByte s (BitVec.ofNat 6 (4 * j))).toNat + 2 ^ 8 * (blkByte s (BitVec.ofNat 6 (4 * j + 1))).toNat
      + 2 ^ 16 * (blkByte s (BitVec.ofNat 6 (4 * j + 2))).toNat
      + 2 ^ 24 * (blkByte s (BitVec.ofNat 6 (4 * j + 3))).toNat

/-- The idempotent writes of R60: a byte of BLK, NOP and INIT. -/
def Obligations.RepeatedWritesIdempotent : Prop :=
  ∀ (ins : Instr) (s t : State),
    (∃ a v, ins = .wr a v ∧ a.toNat ≤ 0x3F) ∨ ins = .nop ∨ ins = .init →
    exec ins s = .next t → exec ins t = .next t

/-- What the hardware does at the host errors of R191 that the state shows: START on a block not fully written runs, and
every other error has no effect. -/
def Obligations.HostErrorOutcomes : Prop :=
  ∀ (s : State) (a : Addr) (v : Byte),
    (hostErrors s true a v ≠ [] → HostError.startUnwritten ∉ hostErrors s true a v →
      exec (.wr a v) s = .next s) ∧
    (HostError.startUnwritten ∈ hostErrors s true a v → exec (.wr a v) s = exec .start s) ∧
    (hostErrors s false a v ≠ [] →
      exec (.rd a) s = .next { s with returned := s.returned ++ [0x00#8] })

/-! ### The arithmetic units and tables -/

/-- R140. -/
def Obligations.AdderWraps : Prop :=
  (∀ x y : Word, (add32 x y).toNat = (x.toNat + y.toNat) % 2 ^ 32) ∧
  (∀ x y z : Word, add32 x y = add32 y x ∧ add32 (add32 x y) z = add32 x (add32 y z) ∧ add32 x 0 = x) ∧
  add32 0xFFFFFFFF#32 0x00000001#32 = 0x00000000#32 ∧ add32 0x80000000#32 0x80000000#32 = 0x00000000#32 ∧
  add32 0xFFFFFFFF#32 0xFFFFFFFF#32 = 0xFFFFFFFE#32 ∧ add32 0xEFCDAB89#32 0x14E45506#32 = 0x04B2008F#32

/-- R141: every bit moves to its place, at every amount the 5-bit input can express. -/
def Obligations.RotatorMovesBits : Prop :=
  ∀ (x : Word) (n : BitVec 5),
    (∀ m, m < 32 → (rotl32 x n).getLsbD ((m + n.toNat) % 32) = x.getLsbD m) ∧
    (1 ≤ n.toNat → (rotl32 x n).toNat =
      (x.toNat * 2 ^ n.toNat ||| x.toNat / 2 ^ (32 - n.toNat)) % 2 ^ 32) ∧
    rotl32 x 0#5 = x

/-- R142, which the spec derives from R140. -/
def Obligations.FourOperandSum : Prop :=
  ∀ f a kc m : Word,
    (sum4 f a kc m).toNat = (f.toNat + a.toNat + kc.toNat + m.toNat) % 2 ^ 32 ∧
    sum4 f a kc m = add32 (add32 (add32 f a) kc) m ∧
    sum4 f a kc m = add32 (add32 m kc) (add32 a f)

/-- R136, which the spec derives from R130 to R134: the four functions are 32 copies of the tables `0xCA`, `0xE4`,
`0x96` and `0x39`. -/
def Obligations.RoundFunctionTruthTables : Prop :=
  (∀ (b c d : Word) (n : Nat), n < 32 →
    let index := 4 * (b.getLsbD n).toNat + 2 * (c.getLsbD n).toNat + (d.getLsbD n).toNat
    (roundF b c d).getLsbD n = (0xCA#8).getLsbD index ∧ (roundG b c d).getLsbD n = (0xE4#8).getLsbD index ∧
    (roundH b c d).getLsbD n = (0x96#8).getLsbD index ∧ (roundI b c d).getLsbD n = (0x39#8).getLsbD index) ∧
  roundF 0xAAAAAAAA#32 0xCCCCCCCC#32 0xF0F0F0F0#32 = 0xD8D8D8D8#32 ∧
  roundG 0xAAAAAAAA#32 0xCCCCCCCC#32 0xF0F0F0F0#32 = 0xACACACAC#32 ∧
  roundH 0xAAAAAAAA#32 0xCCCCCCCC#32 0xF0F0F0F0#32 = 0x96969696#32 ∧
  roundI 0xAAAAAAAA#32 0xCCCCCCCC#32 0xF0F0F0F0#32 = 0x63636363#32

/-- The selector readings and corner cases of R130 to R135. -/
def Obligations.RoundFunctionCorners : Prop :=
  ∀ b c d x : Word,
    (not32 x).toNat = 2 ^ 32 - 1 - x.toNat ∧
    roundF 0 c d = d ∧ roundF 0xFFFFFFFF#32 c d = c ∧ roundF b x x = x ∧
    roundG b c 0 = c ∧ roundG b c 0xFFFFFFFF#32 = b ∧ roundG b c d = roundF d b c ∧
    roundH x x d = d ∧ roundI b c 0 = not32 c ∧
    roundMux 0#2 b c d = roundF b c d ∧ roundMux 1#2 b c d = roundG b c d ∧
    roundMux 2#2 b c d = roundH b c d ∧ roundMux 3#2 b c d = roundI b c d

/-- R122, and R123 which the spec derives from it: the schedule index, its form in the step within the round, and that
each round takes each of the 16 words exactly once. -/
def Obligations.SchedulePermutesWords : Prop :=
  (∀ i : StepIdx, i.toNat ≤ 63 →
    (sched i).toNat =
      [i.toNat, (5 * i.toNat + 1) % 16, (3 * i.toNat + 5) % 16, (7 * i.toNat) % 16].getD (i.toNat / 16) 0) ∧
  (∀ (r : Nat) (x : BitVec 4), r < 4 →
    (sched (BitVec.ofNat 7 (16 * r + x.toNat))).toNat =
      [x.toNat, (5 * x.toNat + 1) % 16, (3 * x.toNat + 5) % 16, (7 * x.toNat) % 16].getD r 0 ∧
    sched (BitVec.ofNat 7 (16 * r + x.toNat)) =
      [x, (x <<< 2) + x + 1, (x <<< 1) + x + 5, (x <<< 3) - x].getD r 0) ∧
  (∀ (r : Nat) (k : BitVec 4), r < 4 → ∃ x, x < 16 ∧ sched (BitVec.ofNat 7 (16 * r + x)) = k ∧
    ∀ y, y < 16 → sched (BitVec.ofNat 7 (16 * r + y)) = k → y = x)

/-- R110, and R111 and R114 which the spec derives from the tables: the rotation amounts and what the rules observe of
the constants. -/
def Obligations.TableEntries : Prop :=
  (∀ r c : BitVec 2,
    (rotAmount r c).toNat =
      ([[7, 12, 17, 22], [5, 9, 14, 20], [4, 11, 16, 23], [6, 10, 15, 21]].getD r.toNat []).getD c.toNat 0 ∧
    4 ≤ (rotAmount r c).toNat ∧ (rotAmount r c).toNat ≤ 23) ∧
  (∀ i : StepIdx, i.toNat ≤ 63 →
    0x02441453 ≤ (kConst i).toNat ∧ (kConst i).toNat ≤ 0xFFFF5BB1 ∧ kConst i ≠ 0) ∧
  kConst 21#7 = 0x02441453#32 ∧ kConst 10#7 = 0xFFFF5BB1#32 ∧
  (∀ i j : StepIdx, i.toNat ≤ 63 → j.toNat ≤ 63 → kConst i = kConst j → i = j)

/-! ### Reset and the invariants -/

/-- The values R39 gives for the state after reset; the last clause is the model's form of "unspecified" (log entry
3). -/
def Obligations.ResetValues : Prop :=
  State.reset.h = ⟨0x67452301#32, 0xEFCDAB89#32, 0x98BADCFE#32, 0x10325476#32⟩ ∧
  State.reset.i = 0#7 ∧ State.reset.busy = false ∧
  (∀ n : BitVec 6, blkByte State.reset n = Config.blkAtReset 0 n.toNat)

/-- The reset transition (R210, R211): it wins over a transaction presented with it and over a busy sequencer, and the
bytes of BLK are unspecified anew, in the model's form (log entries 3, 7 and 11). -/
def Obligations.ResetTransition : Prop :=
  ∀ (s : State) (p : Ports) (rest : List Ports), s.inputs = p :: rest → p.rst = true →
    ∃ t, step s = .next t ∧ t.h = ⟨0x67452301#32, 0xEFCDAB89#32, 0x98BADCFE#32, 0x10325476#32⟩ ∧
      t.i = 0#7 ∧ t.busy = false ∧ (∀ n, blkByte t n = Config.blkAtReset (s.resets + 1) n.toNat) ∧
      t.inputs = rest ∧ t.returned = s.returned

/-- The invariant holds at reset. -/
def Obligations.ResetMeetsInvariant : Prop := Inv State.reset

/-- Every step keeps the invariant: BLK in canonical form, an idle core's counter at 0, a busy core's in 0..64 (R40). -/
def Obligations.StepKeepsInvariant : Prop :=
  ∀ s t : State, Inv s → step s = .next t → Inv t

/-- Under the invariant the machine never stops (R153, R190), whatever the ports bring. -/
def Obligations.StepAlwaysAnswers : Prop :=
  ∀ s : State, Inv s → ∃ t, step s = .next t

/-- Who may change what (R20, R40), in every state. That a reset changes BLK and W too follows R210 (log entry 14). -/
def Obligations.OnlyTheseWrite : Prop :=
  ∀ s t : State, step s = .next t →
    (t.h ≠ s.h → nextAction s = .reset ∨ (s.busy = false ∧ nextAction s = .transaction 0xD001#16) ∨
      nextAction s = .operation 64#7) ∧
    (t.w ≠ s.w → nextAction s = .reset ∨ (s.busy = false ∧ nextAction s = .transaction 0xD002#16) ∨
      ∃ k, k.toNat ≤ 63 ∧ nextAction s = .operation k) ∧
    (t.i ≠ s.i → nextAction s = .reset ∨ (s.busy = false ∧ nextAction s = .transaction 0xD002#16) ∨
      ∃ k, k.toNat ≤ 64 ∧ nextAction s = .operation k) ∧
    (t.busy ≠ s.busy → nextAction s = .reset ∨ (s.busy = false ∧ nextAction s = .transaction 0xD002#16) ∨
      nextAction s = .operation 64#7) ∧
    (∀ n : BitVec 6, blkByte t n ≠ blkByte s n → nextAction s = .reset ∨
      (s.busy = false ∧ ∃ v : Byte, nextAction s = .transaction (1#1 ++ BitVec.ofNat 7 n.toNat ++ v)))

/-! ### Blocks and messages -/

/-- R151, which the spec derives from R143 to R150, R167 and R62: START, then any samples of the ports without a reset
among which the sequencer has 65 turns, the last sample being the 65th: BUSY stays set until then, and then `H` is
COMPRESS1 of the old `H` and the block, whatever host transactions were interleaved. The list of samples is the model's
form of an interleaving (log entry 1). -/
def Obligations.BlockComputation : Prop :=
  ∀ (s : State) (es : List Ports) (p : Ports) (rest : List Ports),
    s.busy = false → s.inputs = startSample :: (es ++ p :: rest) →
    (∀ q ∈ es, q.rst = false) → es.countP sequencerTurn = 64 → sequencerTurn p = true →
    (∀ k, 1 ≤ k → k ≤ 1 + es.length → ∃ u, run k s = .next u ∧ u.busy = true ∧ u.h = s.h) ∧
    ∃ t, run (2 + es.length) s = .next t ∧ t.busy = false ∧ t.i = 0#7 ∧
      t.h = compress1 s.h (blkByte s) ∧ (∀ n, blkByte t n = blkByte s n) ∧ t.inputs = rest

/-- R84 and the bound of R150: left alone (no sample left, log entry 2), a busy core performs the operations of the
fixed program from its counter on, in order, and is idle after the FOLD. -/
def Obligations.SequencerRunsTheProgram : Prop :=
  ∀ s : State, s.busy = true → s.i.toNat ≤ 64 → s.inputs = [] →
    (∀ k, s.i.toNat + k ≤ 64 → ∃ t, run k s = .next t ∧ t.busy = true ∧
      nextAction t = .operation (BitVec.ofNat 7 (s.i.toNat + k))) ∧
    ∃ t, run (65 - s.i.toNat) s = .next t ∧ t.busy = false ∧ t.i = 0#7

/-- R62, item 2: up to and including the FOLD, how host transactions are interleaved cannot change the hardware state. An
interleaving is a list of samples (log entry 1), here one that ends with a turn of the sequencer. -/
def Obligations.InterleavingIrrelevant : Prop :=
  ∀ (s s' : State) (es es' : List Ports) (p p' : Ports),
    sameHardware s s' → s.busy = true → s.inputs = es ++ [p] → s'.inputs = es' ++ [p'] →
    (∀ q ∈ es, q.rst = false) → (∀ q ∈ es', q.rst = false) →
    sequencerTurn p = true → sequencerTurn p' = true →
    es.countP sequencerTurn = es'.countP sequencerTurn → s.i.toNat + es.countP sequencerTurn ≤ 64 →
    ∃ t t', run (es.length + 1) s = .next t ∧ run (es'.length + 1) s' = .next t' ∧ sameHardware t t'

/-- R24: from an idle state, what the working registers hold can never be told from outside. -/
def Obligations.WorkingRegistersUnobservable : Prop :=
  ∀ (n : Nat) (s : State) (q : Quad), s.busy = false →
    ∃ t t', run n s = .next t ∧ run n { s with w := q } = .next t' ∧
      t'.returned = t.returned ∧ t'.h = t.h ∧ t'.busy = t.busy ∧ t'.i = t.i ∧ ∀ k, blkByte t' k = blkByte t k

/-- `ldblk` (R94): 64 writes load the block and change nothing else. -/
def Obligations.LoadBlock : Prop :=
  ∀ (s : State) (bs : List Byte) (rest : List Ports),
    s.busy = false → bs.length = 64 → s.inputs = ldblk bs ++ rest →
    ∃ t, run 64 s = .next t ∧ t = { s with blk := t.blk, inputs := rest } ∧
      ∀ n, blkByte t n = blockView bs n

/-- R168, which the spec derives from R162, R167, R151 and R62: `ldblk`, `start`, `wait`. The wait is any sequence of
STATUS reads and turns of the sequencer; it has ended when BUSY is 0, which its last STATUS read shows. The host's
sequences are the reference functions of log entry 13. -/
def Obligations.OneBlock : Prop :=
  ∀ (s : State) (bs : List Byte) (wait : List Ports),
    s.busy = false → bs.length = 64 → s.inputs = hashblk bs wait →
    (∀ q ∈ wait, q = Ports.idle ∨ q = statusSample) →
    ∃ t, run (65 + wait.length) s = .next t ∧
      (t.busy = false ↔ 65 ≤ wait.countP sequencerTurn) ∧
      (t.busy = false → t.h = compress1 s.h (blockView bs) ∧ ∀ n, blkByte t n = blockView bs n) ∧
      (wait.getLast? = some statusSample → (t.returned.getLast? = some 0x00#8 ↔ t.busy = false))

/-- R169, which the spec derives from R168, R152 and R33: `init`, every block of the padded message in order,
`rdstate`: the last 16 bytes returned are the digest bytes. The bytes returned are the list of log entry 6; the Padder
and the host's sequences are the reference functions of log entry 13. -/
def Obligations.OneMessage : Prop :=
  ∀ (s : State) (m : List Byte) (waits : List (List Ports)),
    s.busy = false → waits.length = (messageBlocks m).length → (∀ w ∈ waits, isWait w) →
    s.inputs = initSample :: ((List.zipWith hashblk (messageBlocks m) waits).flatten ++ rdstate) →
    ∃ t answers, run s.inputs.length s = .next t ∧ t.busy = false ∧
      t.returned = s.returned ++ answers ++ stateBytes (digestState m)

/-- R182 (host software), which the spec derives from R181: the padded length and the length field (log entry 13). -/
def Obligations.PaddingShape : Prop :=
  ∀ m : List Byte,
    (pad m).length = 64 * ((m.length + 8) / 64 + 1) ∧
    (pad m).take m.length = m ∧ (pad m)[m.length]? = some 0x80#8 ∧
    (∀ k, m.length < k → k < (pad m).length - 8 → (pad m)[k]? = some 0x00#8) ∧
    ∀ j, j < 8 → (pad m)[(pad m).length - 8 + j]? = some (BitVec.ofNat 8 (8 * m.length % 2 ^ 64 / 256 ^ j))

/-- R183 (host software, log entry 13): the digest bytes are the STATE window, and the text is 32 lowercase
hexadecimal characters. -/
def Obligations.DigestText : Prop :=
  ∀ s : State,
    (List.range 16).map (fun n => memRead s (BitVec.ofNat 7 (0x40 + n))) = stateBytes s.h ∧
    (finalize s.h).length = 32 ∧ (∀ c ∈ finalize s.h, c.isDigit = true ∨ ('a' ≤ c ∧ c ≤ 'f')) ∧
    finalize ⟨0xD98C1DD4#32, 0x04B2008F#32, 0x980980E9#32, 0x7E42F8EC#32⟩ =
      ['d', '4', '1', 'd', '8', 'c', 'd', '9', '8', 'f', '0', '0', 'b', '2', '0', '4',
       'e', '9', '8', '0', '0', '9', '9', '8', 'e', 'c', 'f', '8', '4', '2', '7', 'e']

/-- R169 without the `init`, as it allows for a core that has just been reset: `H` still holds the initial constants (log
entries 6 and 13 as for OneMessage). -/
def Obligations.OneMessageWithoutInit : Prop :=
  ∀ (s : State) (m : List Byte) (waits : List (List Ports)),
    s.busy = false → s.h = ⟨0x67452301#32, 0xEFCDAB89#32, 0x98BADCFE#32, 0x10325476#32⟩ →
    waits.length = (messageBlocks m).length → (∀ w ∈ waits, isWait w) →
    s.inputs = (List.zipWith hashblk (messageBlocks m) waits).flatten ++ rdstate →
    ∃ t answers, run s.inputs.length s = .next t ∧ t.busy = false ∧
      t.returned = s.returned ++ answers ++ stateBytes (digestState m)
end

