-- ==== Sys2Proof/Laws/State.lean ====
section
/-! SUPPORT. What each named update does to each field of the state: one lemma per field per update, so that no proof
unfolds a record update. -/

namespace Sys2Proof.Machine

@[simp] theorem setH_h (q : Quad) (s : State) : (setH q s).h = q := rfl
@[simp] theorem setH_w (q : Quad) (s : State) : (setH q s).w = s.w := rfl
@[simp] theorem setH_blk (q : Quad) (s : State) : (setH q s).blk = s.blk := rfl
@[simp] theorem setH_i (q : Quad) (s : State) : (setH q s).i = s.i := rfl
@[simp] theorem setH_busy (q : Quad) (s : State) : (setH q s).busy = s.busy := rfl
@[simp] theorem setH_inputs (q : Quad) (s : State) : (setH q s).inputs = s.inputs := rfl
@[simp] theorem setH_returned (q : Quad) (s : State) : (setH q s).returned = s.returned := rfl
@[simp] theorem setH_resets (q : Quad) (s : State) : (setH q s).resets = s.resets := rfl

@[simp] theorem setW_h (q : Quad) (s : State) : (setW q s).h = s.h := rfl
@[simp] theorem setW_w (q : Quad) (s : State) : (setW q s).w = q := rfl
@[simp] theorem setW_blk (q : Quad) (s : State) : (setW q s).blk = s.blk := rfl
@[simp] theorem setW_i (q : Quad) (s : State) : (setW q s).i = s.i := rfl
@[simp] theorem setW_busy (q : Quad) (s : State) : (setW q s).busy = s.busy := rfl
@[simp] theorem setW_inputs (q : Quad) (s : State) : (setW q s).inputs = s.inputs := rfl
@[simp] theorem setW_returned (q : Quad) (s : State) : (setW q s).returned = s.returned := rfl
@[simp] theorem setW_resets (q : Quad) (s : State) : (setW q s).resets = s.resets := rfl

@[simp] theorem setI_h (v : StepIdx) (s : State) : (setI v s).h = s.h := rfl
@[simp] theorem setI_w (v : StepIdx) (s : State) : (setI v s).w = s.w := rfl
@[simp] theorem setI_blk (v : StepIdx) (s : State) : (setI v s).blk = s.blk := rfl
@[simp] theorem setI_i (v : StepIdx) (s : State) : (setI v s).i = v := rfl
@[simp] theorem setI_busy (v : StepIdx) (s : State) : (setI v s).busy = s.busy := rfl
@[simp] theorem setI_inputs (v : StepIdx) (s : State) : (setI v s).inputs = s.inputs := rfl
@[simp] theorem setI_returned (v : StepIdx) (s : State) : (setI v s).returned = s.returned := rfl
@[simp] theorem setI_resets (v : StepIdx) (s : State) : (setI v s).resets = s.resets := rfl

@[simp] theorem setBusy_h (b : Bool) (s : State) : (setBusy b s).h = s.h := rfl
@[simp] theorem setBusy_w (b : Bool) (s : State) : (setBusy b s).w = s.w := rfl
@[simp] theorem setBusy_blk (b : Bool) (s : State) : (setBusy b s).blk = s.blk := rfl
@[simp] theorem setBusy_i (b : Bool) (s : State) : (setBusy b s).i = s.i := rfl
@[simp] theorem setBusy_busy (b : Bool) (s : State) : (setBusy b s).busy = b := rfl
@[simp] theorem setBusy_inputs (b : Bool) (s : State) : (setBusy b s).inputs = s.inputs := rfl
@[simp] theorem setBusy_returned (b : Bool) (s : State) : (setBusy b s).returned = s.returned := rfl
@[simp] theorem setBusy_resets (b : Bool) (s : State) : (setBusy b s).resets = s.resets := rfl

@[simp] theorem setBlk_h (n : BitVec 6) (v : Byte) (s : State) : (setBlk n v s).h = s.h := rfl
@[simp] theorem setBlk_w (n : BitVec 6) (v : Byte) (s : State) : (setBlk n v s).w = s.w := rfl
@[simp] theorem setBlk_blk (n : BitVec 6) (v : Byte) (s : State) : (setBlk n v s).blk = Memory.write s.blk n.toNat v := rfl
@[simp] theorem setBlk_i (n : BitVec 6) (v : Byte) (s : State) : (setBlk n v s).i = s.i := rfl
@[simp] theorem setBlk_busy (n : BitVec 6) (v : Byte) (s : State) : (setBlk n v s).busy = s.busy := rfl
@[simp] theorem setBlk_inputs (n : BitVec 6) (v : Byte) (s : State) : (setBlk n v s).inputs = s.inputs := rfl
@[simp] theorem setBlk_returned (n : BitVec 6) (v : Byte) (s : State) : (setBlk n v s).returned = s.returned := rfl
@[simp] theorem setBlk_resets (n : BitVec 6) (v : Byte) (s : State) : (setBlk n v s).resets = s.resets := rfl

@[simp] theorem giveByte_h (v : Byte) (s : State) : (giveByte v s).h = s.h := rfl
@[simp] theorem giveByte_w (v : Byte) (s : State) : (giveByte v s).w = s.w := rfl
@[simp] theorem giveByte_blk (v : Byte) (s : State) : (giveByte v s).blk = s.blk := rfl
@[simp] theorem giveByte_i (v : Byte) (s : State) : (giveByte v s).i = s.i := rfl
@[simp] theorem giveByte_busy (v : Byte) (s : State) : (giveByte v s).busy = s.busy := rfl
@[simp] theorem giveByte_inputs (v : Byte) (s : State) : (giveByte v s).inputs = s.inputs := rfl
@[simp] theorem giveByte_returned (v : Byte) (s : State) : (giveByte v s).returned = s.returned ++ [v] := rfl
@[simp] theorem giveByte_resets (v : Byte) (s : State) : (giveByte v s).resets = s.resets := rfl

@[simp] theorem advance_h (s : State) : (advance s).h = s.h := rfl
@[simp] theorem advance_w (s : State) : (advance s).w = s.w := rfl
@[simp] theorem advance_blk (s : State) : (advance s).blk = s.blk := rfl
@[simp] theorem advance_i (s : State) : (advance s).i = s.i := rfl
@[simp] theorem advance_busy (s : State) : (advance s).busy = s.busy := rfl
@[simp] theorem advance_inputs (s : State) : (advance s).inputs = s.inputs.tail := rfl
@[simp] theorem advance_returned (s : State) : (advance s).returned = s.returned := rfl
@[simp] theorem advance_resets (s : State) : (advance s).resets = s.resets := rfl

@[simp] theorem resetTransition_h (s : State) : (resetTransition s).h = ivQuad := rfl
@[simp] theorem resetTransition_w (s : State) : (resetTransition s).w = ⟨0, 0, 0, 0⟩ := rfl
@[simp] theorem resetTransition_blk (s : State) : (resetTransition s).blk = [] := rfl
@[simp] theorem resetTransition_i (s : State) : (resetTransition s).i = 0#7 := rfl
@[simp] theorem resetTransition_busy (s : State) : (resetTransition s).busy = false := rfl
@[simp] theorem resetTransition_inputs (s : State) : (resetTransition s).inputs = s.inputs := rfl
@[simp] theorem resetTransition_returned (s : State) : (resetTransition s).returned = s.returned := rfl
@[simp] theorem resetTransition_resets (s : State) : (resetTransition s).resets = s.resets + 1 := rfl

end Sys2Proof.Machine
end

