-- ==== Sys2Proof/Laws/Memory.lean ====
section
/-! SUPPORT. The laws of the block buffer: a read after a write, and that every operation keeps the canonical form. -/

namespace Sys2Proof.Machine

/-- What is listed after a write: the byte written, and everything else as before. -/
theorem Memory.find_write (m : Memory) (a b : Nat) (v : Byte) :
    Memory.find (Memory.write m a v) b = if b = a then some v else Memory.find m b := by
  induction m with
  | nil => simp [Memory.write, Memory.find]
  | cons c m ih =>
    obtain ⟨k, u⟩ := c
    rcases Nat.lt_trichotomy a k with h | h | h
    · simp only [Memory.write, if_pos h, Memory.find]
    · subst h
      by_cases hb : b = a <;> simp [Memory.write, Memory.find, hb]
    · have hne : ¬ a = k := by omega
      simp only [Memory.write, if_neg (Nat.lt_asymm h), if_neg hne, Memory.find, ih]
      by_cases hb : b = k
      · rw [if_pos hb, if_pos hb, if_neg (by omega)]
      · rw [if_neg hb, if_neg hb]

/-- A read after a write: the byte written at its address, the old byte elsewhere. -/
theorem Memory.read_write (r : Nat) (m : Memory) (a b : Nat) (v : Byte) :
    Memory.read r (Memory.write m a v) b = if b = a then v else Memory.read r m b := by
  by_cases h : b = a <;> simp [Memory.read, Memory.find_write, h]

/-- The addresses listed after a write are the old ones and the one written. -/
theorem Memory.mem_write (m : Memory) (a : Nat) (v : Byte) (c : Host.Cell) (h : c ∈ Memory.write m a v) :
    c = (a, v) ∨ c ∈ m := by
  induction m with
  | nil => simpa [Memory.write] using h
  | cons d m ih =>
    simp only [Memory.write] at h
    split at h
    · simpa using h
    · split at h
      · rcases List.mem_cons.mp h with h | h
        · exact .inl h
        · exact .inr (List.mem_cons_of_mem _ h)
      · rcases List.mem_cons.mp h with h | h
        · exact .inr (h ▸ List.mem_cons_self)
        · exact (ih h).imp_right (List.mem_cons_of_mem _)

/-- A write keeps the addresses strictly rising. -/
theorem Memory.rising_write (m : Memory) (a : Nat) (v : Byte) (h : Memory.rising m = true) :
    Memory.rising (Memory.write m a v) = true := by
  induction m with
  | nil => rfl
  | cons c m ih =>
    simp only [Memory.rising, Bool.and_eq_true, List.all_eq_true, decide_eq_true_eq] at h
    simp only [Memory.write]
    split
    · simp only [Memory.rising, Bool.and_eq_true, List.all_eq_true, decide_eq_true_eq, List.mem_cons]
      refine ⟨?_, h⟩
      rintro e (rfl | he)
      · assumption
      · exact Nat.lt_trans ‹_› (h.1 e he)
    · split
      · subst_vars
        simp only [Memory.rising, Bool.and_eq_true, List.all_eq_true, decide_eq_true_eq]
        exact h
      · simp only [Memory.rising, Bool.and_eq_true, List.all_eq_true, decide_eq_true_eq]
        refine ⟨fun e he => ?_, ih h.2⟩
        rcases Memory.mem_write m a v e he with rfl | he
        · change c.1 < a
          omega
        · exact h.1 e he

/-- A write below address 64 keeps the canonical form. -/
theorem Memory.wf_write (m : Memory) (a : Nat) (v : Byte) (h : Memory.wf m = true) (ha : a < 64) :
    Memory.wf (Memory.write m a v) = true := by
  simp only [Memory.wf, Bool.and_eq_true, List.all_eq_true, decide_eq_true_eq] at h ⊢
  refine ⟨Memory.rising_write m a v h.1, fun c hc => ?_⟩
  rcases Memory.mem_write m a v c hc with rfl | hc
  · exact ha
  · exact h.2 c hc

/-- The empty buffer, which reset leaves, is in canonical form. -/
@[simp] theorem Memory.wf_nil : Memory.wf [] = true := rfl

/-- Writing the same byte twice is writing it once. -/
theorem Memory.write_write (m : Memory) (a : Nat) (v : Byte) :
    Memory.write (Memory.write m a v) a v = Memory.write m a v := by
  induction m with
  | nil => simp [Memory.write]
  | cons c m ih =>
    obtain ⟨k, u⟩ := c
    rcases Nat.lt_trichotomy a k with h | h | h
    · simp [Memory.write, h]
    · simp [Memory.write, h]
    · have h1 := Nat.lt_asymm h
      have h2 : ¬ a = k := by omega
      simp [Memory.write, h1, h2, ih]

/-- A byte of BLK after a write to BLK. -/
@[simp] theorem blkByte_setBlk (n m : BitVec 6) (v : Byte) (s : State) :
    blkByte (setBlk n v s) m = if m = n then v else blkByte s m := by
  simp only [blkByte, setBlk_resets, setBlk_blk, Memory.read_write, BitVec.toNat_inj]

/-- The bytes of BLK depend on the list and on the reset count only. -/
theorem blkByte_congr {s t : State} (hb : t.blk = s.blk) (hr : t.resets = s.resets) : blkByte t = blkByte s := by
  funext n
  simp only [blkByte, hb, hr]

@[simp] theorem blkByte_setH (q : Quad) (s : State) : blkByte (setH q s) = blkByte s := rfl
@[simp] theorem blkByte_setW (q : Quad) (s : State) : blkByte (setW q s) = blkByte s := rfl
@[simp] theorem blkByte_setI (v : StepIdx) (s : State) : blkByte (setI v s) = blkByte s := rfl
@[simp] theorem blkByte_setBusy (b : Bool) (s : State) : blkByte (setBusy b s) = blkByte s := rfl
@[simp] theorem blkByte_giveByte (v : Byte) (s : State) : blkByte (giveByte v s) = blkByte s := rfl
@[simp] theorem blkByte_advance (s : State) : blkByte (advance s) = blkByte s := rfl

/-- After the reset transition every byte is the free value of the new reset. -/
@[simp] theorem blkByte_resetTransition (s : State) (n : BitVec 6) :
    blkByte (resetTransition s) n = Config.blkAtReset (s.resets + 1) n.toNat := rfl

end Sys2Proof.Machine
end

