-- ==== Sys2Proof/Laws/Ops.lean ====
section
/-! SUPPORT. One lemma per shared operation that says once what it can do. -/

namespace Sys2Proof.Machine

/-- MemRead, case by case (R54). -/
theorem memRead_cases (s : State) (addr : Addr) :
    (addr.toNat ≤ 0x3F ∧ memRead s addr = blkByte s (addr.extractLsb' 0 6)) ∨
    (0x40 ≤ addr.toNat ∧ addr.toNat ≤ 0x4F ∧
      memRead s addr = quadByte s.h (addr.extractLsb' 2 2) (addr.extractLsb' 0 2)) ∨
    (addr = statusAddr ∧ memRead s addr = statusByte s) ∨
    (0x50 ≤ addr.toNat ∧ addr ≠ statusAddr ∧ memRead s addr = 0x00#8) := by
  unfold memRead
  split
  · exact .inl ⟨‹_›, rfl⟩
  · split
    · exact .inr (.inl ⟨by omega, ‹_›, rfl⟩)
    · split
      · exact .inr (.inr (.inl ⟨‹_›, rfl⟩))
      · exact .inr (.inr (.inr ⟨by omega, ‹_›, rfl⟩))

/-- MemRead depends on BLK, `H` and BUSY only. -/
theorem memRead_congr {s t : State} (hb : blkByte t = blkByte s) (hh : t.h = s.h) (hy : t.busy = s.busy) :
    memRead t = memRead s := by
  funext addr
  simp only [memRead, hb, hh, statusByte, busyBit, hy]

/-- Command(v), case by case (R163, R92). -/
theorem command_cases (v : Byte) (s : State) :
    (v = 0x01#8 ∧ command v s = loadIV s) ∨ (v = 0x02#8 ∧ command v s = startBlock s) ∨
    (v ≠ 0x01#8 ∧ v ≠ 0x02#8 ∧ command v s = s) := by
  unfold command
  split
  · subst_vars
    exact .inr (.inr ⟨by decide, by decide, rfl⟩)
  · split
    · exact .inl ⟨‹_›, rfl⟩
    · split
      · exact .inr (.inl ⟨‹_›, rfl⟩)
      · exact .inr (.inr ⟨‹_›, ‹_›, rfl⟩)

/-- While BUSY is set a host write does nothing (R55, R164). -/
theorem memWrite_busy (addr : Addr) (v : Byte) (s : State) (h : s.busy = true) : memWrite addr v s = s := by
  simp [memWrite, h]

/-- MemWrite, case by case (R55): dropped, a byte of BLK, or a command. -/
theorem memWrite_cases (addr : Addr) (v : Byte) (s : State) :
    memWrite addr v s = s ∨
    (s.busy = false ∧ addr.toNat ≤ 0x3F ∧ memWrite addr v s = setBlk (addr.extractLsb' 0 6) v s) ∨
    (s.busy = false ∧ addr = ctrlAddr ∧ v = 0x01#8 ∧ memWrite addr v s = loadIV s) ∨
    (s.busy = false ∧ addr = ctrlAddr ∧ v = 0x02#8 ∧ memWrite addr v s = startBlock s) := by
  cases hb : s.busy with
  | true => exact .inl (memWrite_busy addr v s hb)
  | false =>
    simp only [memWrite, hb, Bool.false_eq_true, if_false]
    split
    · exact .inr (.inl ⟨trivial, ‹_›, rfl⟩)
    · split
      · rcases command_cases v s with ⟨hv, h⟩ | ⟨hv, h⟩ | ⟨-, -, h⟩
        · exact .inr (.inr (.inl ⟨trivial, ‹_›, hv, h⟩))
        · exact .inr (.inr (.inr ⟨trivial, ‹_›, hv, h⟩))
        · exact .inl h
      · exact .inl rfl

/-- The index of a BLK address is the address itself. -/
theorem blkIndex_toNat (addr : Addr) (h : addr.toNat ≤ 0x3F) : (addr.extractLsb' 0 6).toNat = addr.toNat := by
  rw [BitVec.extractLsb'_toNat, Nat.shiftRight_zero]
  omega

/-- MemWrite keeps the canonical form of BLK. -/
theorem memWrite_wf (addr : Addr) (v : Byte) (s : State) (h : Memory.wf s.blk = true) :
    Memory.wf (memWrite addr v s).blk = true := by
  rcases memWrite_cases addr v s with e | ⟨-, -, e⟩ | ⟨-, -, -, e⟩ | ⟨-, -, -, e⟩ <;> rw [e]
  · exact h
  · exact Memory.wf_write _ _ _ h (BitVec.isLt _)
  · exact h
  · exact h

/-- What START leaves (R167). -/
theorem startBlock_eq (s : State) : startBlock s = { s with w := s.h, i := 0#7, busy := true } := rfl

/-- What INIT leaves (R166). -/
theorem loadIV_eq (s : State) : loadIV s = { s with h := ivQuad } := rfl

/-- What FOLD leaves (R149). -/
theorem foldUpdate_eq (s : State) :
    foldUpdate s = { s with h := addQuad s.h s.w, i := 0#7, busy := false } := rfl

/-- What a STEP leaves alone, and where the old registers go (R144). -/
theorem stepUpdate_frame (i : StepIdx) (r : BitVec 2) (f : Word) (k : BitVec 4) (s : State) :
    (stepUpdate i r f k s).h = s.h ∧ (stepUpdate i r f k s).blk = s.blk ∧
    (stepUpdate i r f k s).busy = s.busy ∧ (stepUpdate i r f k s).inputs = s.inputs ∧
    (stepUpdate i r f k s).returned = s.returned ∧ (stepUpdate i r f k s).resets = s.resets ∧
    (stepUpdate i r f k s).i = i + 1 ∧ (stepUpdate i r f k s).w.a = s.w.d ∧
    (stepUpdate i r f k s).w.c = s.w.b ∧ (stepUpdate i r f k s).w.d = s.w.c :=
  ⟨rfl, rfl, rfl, rfl, rfl, rfl, rfl, rfl, rfl, rfl⟩

/-- What reset leaves (R210). -/
theorem resetTransition_eq (s : State) :
    resetTransition s = { State.reset with inputs := s.inputs, returned := s.returned, resets := s.resets + 1 } := rfl

end Sys2Proof.Machine
end

