-- ==== Sys2Proof/Laws/Exec.lean ====
section
/-! SUPPORT. When each meaning answers a next state, and which: one inversion lemma per meaning. -/

namespace Sys2Proof.Machine

/-- A guarded meaning answers a next state exactly when its guard holds. -/
theorem guarded_next (c : Prop) [Decidable c] (u t : State) (f : Fault) :
    (if c then Host.Outcome.next u else .fault f : Host.Outcome State Fault Refusal) = .next t ↔ c ∧ t = u := by
  by_cases h : c
  · rw [if_pos h, Host.Outcome.next.injEq, eq_comm]
    exact (and_iff_right h).symm
  · simp [h]

/-- An unguarded meaning answers exactly its one next state. -/
theorem next_next (u t : State) : (Host.Outcome.next u : Host.Outcome State Fault Refusal) = .next t ↔ t = u := by
  simp only [Host.Outcome.next.injEq]
  exact eq_comm

theorem execStepF_next (i : StepIdx) (s t : State) : execStepF i s = .next t ↔
    (s.busy = true ∧ s.i = i ∧ i.toNat ≤ 15) ∧
      t = stepUpdate i 0#2 (roundF s.w.b s.w.c s.w.d) (schedF i) s :=
  guarded_next _ _ _ _

theorem execStepG_next (i : StepIdx) (s t : State) : execStepG i s = .next t ↔
    (s.busy = true ∧ s.i = i ∧ 16 ≤ i.toNat ∧ i.toNat ≤ 31) ∧
      t = stepUpdate i 1#2 (roundG s.w.b s.w.c s.w.d) (schedG i) s :=
  guarded_next _ _ _ _

theorem execStepH_next (i : StepIdx) (s t : State) : execStepH i s = .next t ↔
    (s.busy = true ∧ s.i = i ∧ 32 ≤ i.toNat ∧ i.toNat ≤ 47) ∧
      t = stepUpdate i 2#2 (roundH s.w.b s.w.c s.w.d) (schedH i) s :=
  guarded_next _ _ _ _

theorem execStepI_next (i : StepIdx) (s t : State) : execStepI i s = .next t ↔
    (s.busy = true ∧ s.i = i ∧ 48 ≤ i.toNat ∧ i.toNat ≤ 63) ∧
      t = stepUpdate i 3#2 (roundI s.w.b s.w.c s.w.d) (schedI i) s :=
  guarded_next _ _ _ _

theorem execFold_next (s t : State) : execFold s = .next t ↔
    (s.busy = true ∧ s.i = 64#7) ∧ t = foldUpdate s :=
  guarded_next _ _ _ _

theorem execRd_next (addr : Addr) (s t : State) : execRd addr s = .next t ↔
    t = giveByte (memRead s addr) s :=
  next_next _ _

theorem execWr_next (addr : Addr) (v : Byte) (s t : State) : execWr addr v s = .next t ↔
    t = memWrite addr v s :=
  next_next _ _

theorem execNop_next (s t : State) : execNop s = .next t ↔ t = s :=
  next_next _ _

theorem execInit_next (s t : State) : execInit s = .next t ↔ t = if s.busy then s else loadIV s :=
  next_next _ _

theorem execStart_next (s t : State) : execStart s = .next t ↔ t = if s.busy then s else startBlock s :=
  next_next _ _

/-- A command is the write of its byte to CTRL (R87, R163). -/
theorem execWr_ctrl (s : State) :
    execWr ctrlAddr 0x00#8 s = execNop s ∧ execWr ctrlAddr 0x01#8 s = execInit s ∧
    execWr ctrlAddr 0x02#8 s = execStart s := by
  cases h : s.busy <;>
    simp [execWr, execNop, execInit, execStart, memWrite, ctrlAddr, command, h]

/-- The host's instructions always answer a next state (R56, R89, R190). -/
theorem exec_host_next (i : Instr) (s : State)
    (h : ∀ k, i ≠ .stepF k ∧ i ≠ .stepG k ∧ i ≠ .stepH k ∧ i ≠ .stepI k) (hf : i ≠ .fold) :
    ∃ t, exec i s = .next t := by
  cases i with
  | stepF k => exact absurd rfl (h k).1
  | stepG k => exact absurd rfl (h k).2.1
  | stepH k => exact absurd rfl (h k).2.2.1
  | stepI k => exact absurd rfl (h k).2.2.2
  | fold => exact absurd rfl hf
  | rd addr => exact ⟨_, rfl⟩
  | wr addr v => exact ⟨_, rfl⟩
  | nop => exact ⟨_, rfl⟩
  | init => exact ⟨_, rfl⟩
  | start => exact ⟨_, rfl⟩

end Sys2Proof.Machine
end

