-- ==== Sys2Proof/Laws/PerInstr.lean ====
section
/-! SUPPORT. A statement made for each instruction as syntax: the word the encoder gives it fits its row of
spec/opcode_table.json, the row's match under the row's mask. -/

namespace Sys2Proof.Laws.EncodingFits

/-- A word of the row's format whose bits under the mask are the match. -/
def fits (bits : Nat) (pattern mask : Nat) : InstrWord → Prop
  | .step w => bits = 7 ∧ w &&& BitVec.ofNat 7 mask = BitVec.ofNat 7 pattern
  | .bus w => bits = 16 ∧ w &&& BitVec.ofNat 16 mask = BitVec.ofNat 16 pattern

/-- The encoding of a well-formed instruction fits the match and mask of its row (R82, R87). -/
def Statement (i : Instr) : Prop :=
  i.wf = true →
    match i with
    | .stepF _ => fits 7 0x00 0x70 (encode i)
    | .stepG _ => fits 7 0x10 0x70 (encode i)
    | .stepH _ => fits 7 0x20 0x70 (encode i)
    | .stepI _ => fits 7 0x30 0x70 (encode i)
    | .fold => fits 7 0x40 0x7F (encode i)
    | .rd _ => fits 16 0x0000 0x8000 (encode i)
    | .wr _ _ => fits 16 0x8000 0x8000 (encode i)
    | .nop => fits 16 0xD000 0xFFFF (encode i)
    | .init => fits 16 0xD001 0xFFFF (encode i)
    | .start => fits 16 0xD002 0xFFFF (encode i)

/-- Bits 6:4 of a step index, as the mask `0x70` leaves them. -/
theorem step_mask (i : StepIdx) : (i &&& BitVec.ofNat 7 0x70).toNat = 16 * (i.toNat / 16) := by
  revert i
  decide +revert

/-- Bit 15 of a bus word, as the mask `0x8000` leaves it (R86). -/
theorem bus_mask (we : Bool) (addr : Addr) (v : Byte) :
    busWord we addr v &&& BitVec.ofNat 16 0x8000 = if we then BitVec.ofNat 16 0x8000 else BitVec.ofNat 16 0x0000 := by
  apply BitVec.eq_of_getLsbD_eq
  intro k hk
  rw [BitVec.getLsbD_and, busWord, BitVec.getLsbD_append, BitVec.getLsbD_append]
  rcases Nat.lt_or_ge k 15 with h | h
  · have hm : (BitVec.ofNat 16 0x8000).getLsbD k = false := by interval_cases k <;> rfl
    rw [hm, Bool.and_false]
    cases we
    · simp
    · exact hm.symm
  · obtain rfl : k = 15 := by omega
    cases we <;> simp

theorem stepF (i : StepIdx) : Statement (.stepF i) := fun h => ⟨rfl, by
  have := step_mask i
  simp only [Instr.wf, decide_eq_true_eq] at h
  exact BitVec.eq_of_toNat_eq (this.trans (by simp; omega))⟩

theorem stepG (i : StepIdx) : Statement (.stepG i) := fun h => ⟨rfl, by
  have := step_mask i
  simp only [Instr.wf, decide_eq_true_eq] at h
  exact BitVec.eq_of_toNat_eq (this.trans (by simp; omega))⟩

theorem stepH (i : StepIdx) : Statement (.stepH i) := fun h => ⟨rfl, by
  have := step_mask i
  simp only [Instr.wf, decide_eq_true_eq] at h
  exact BitVec.eq_of_toNat_eq (this.trans (by simp; omega))⟩

theorem stepI (i : StepIdx) : Statement (.stepI i) := fun h => ⟨rfl, by
  have := step_mask i
  simp only [Instr.wf, decide_eq_true_eq] at h
  exact BitVec.eq_of_toNat_eq (this.trans (by simp; omega))⟩

theorem fold : Statement .fold := fun _ => ⟨rfl, by decide⟩

theorem rd (addr : Addr) : Statement (.rd addr) := fun _ => ⟨rfl, bus_mask false addr 0x00#8⟩

theorem wr (addr : Addr) (data : Byte) : Statement (.wr addr data) := fun _ => ⟨rfl, bus_mask true addr data⟩

theorem nop : Statement .nop := fun _ => ⟨rfl, by decide⟩

theorem init : Statement .init := fun _ => ⟨rfl, by decide⟩

theorem start : Statement .start := fun _ => ⟨rfl, by decide⟩

end Sys2Proof.Laws.EncodingFits
end

