-- ==== Sys2Proof/Laws/Run.lean ====
section
/-! SUPPORT. Runs of several steps, and the recursion of the block computation, one lemma per equation. -/

namespace Sys2Proof.Machine

/-- A run begins with its first step. -/
theorem run_succ {s t : State} (h : step s = .next t) (n : Nat) : run (n + 1) s = run n t := by
  simp only [run, h]

/-- A run can be cut where it answers a next state. -/
theorem run_add {s t : State} (n m : Nat) (h : run n s = .next t) : run (n + m) s = run m t := by
  induction n generalizing s with
  | zero =>
    rw [run, Host.Outcome.next.injEq] at h
    rw [Nat.zero_add, h]
  | succ n ih =>
    rw [Nat.succ_add]
    simp only [run] at h ⊢
    cases hs : step s with
    | next u =>
      rw [hs] at h
      exact ih h
    | fault f =>
      rw [hs] at h
      exact absurd h nofun
    | refused r =>
      rw [hs] at h
      exact absurd h nofun

/-- `w_0` of R151. -/
theorem workAfter_zero (h : Quad) (blk : BitVec 6 → Byte) : workAfter h blk 0 = h := rfl

/-- `w_(i+1)` of R151. -/
theorem workAfter_succ (h : Quad) (blk : BitVec 6 → Byte) (n : Nat) :
    workAfter h blk (n + 1) = stepQuad (BitVec.ofNat 7 n) (workAfter h blk n) blk := rfl

/-- With no block the chained result is the chaining value (R152). -/
theorem chain_nil (h : Quad) : chain h [] = h := List.foldl_nil

/-- The first block is compressed first (R152). -/
theorem chain_cons (h : Quad) (b : BitVec 6 → Byte) (bs : List (BitVec 6 → Byte)) :
    chain h (b :: bs) = chain (compress1 h b) bs := List.foldl_cons ..

end Sys2Proof.Machine
end

