-- ==== Sys2Proof/Laws/Step.lean ====
section
/-! SUPPORT. What the decoder answers on each range of words, and what a step can do. -/

namespace Sys2Proof.Machine

/-- Field `i[6:4]` is the counter divided by 16 (R12, R81). -/
theorem stepSelect_toNat (w : StepIdx) : (stepSelect w).toNat = w.toNat / 16 := by
  have := w.isLt
  rw [stepSelect, BitVec.extractLsb'_toNat, Nat.shiftRight_eq_div_pow]
  omega

/-- What a step word decodes to, by ranges (R82, R85). -/
theorem decodeStep_cases (w : StepIdx) :
    (w.toNat ≤ 15 ∧ decodeStep w = .ok (.stepF w)) ∨
    (16 ≤ w.toNat ∧ w.toNat ≤ 31 ∧ decodeStep w = .ok (.stepG w)) ∨
    (32 ≤ w.toNat ∧ w.toNat ≤ 47 ∧ decodeStep w = .ok (.stepH w)) ∨
    (48 ≤ w.toNat ∧ w.toNat ≤ 63 ∧ decodeStep w = .ok (.stepI w)) ∨
    (w = 64#7 ∧ decodeStep w = .ok .fold) ∨
    (65 ≤ w.toNat ∧ decodeStep w = .error .reservedStepWord) := by
  have hs := stepSelect_toNat w
  have hl := w.isLt
  have hne : ∀ v : BitVec 3, stepSelect w = v ↔ w.toNat / 16 = v.toNat := fun v => by
    rw [← hs, BitVec.toNat_inj]
  have h64 : w = 64#7 ↔ w.toNat = 64 := by rw [← BitVec.toNat_inj]; rfl
  unfold decodeStep
  simp only [hne, h64, BitVec.toNat_ofNat, Nat.reducePow, Nat.reduceMod]
  split_ifs <;> simp <;> omega

/-- A bus word never decodes to an operation of the sequencer. -/
theorem decodeBus_cases (w : BitVec 16) :
    decodeBus w = .nop ∨ decodeBus w = .init ∨ decodeBus w = .start ∨
    (busWrite w = true ∧ decodeBus w = .wr (busAddr w) (busData w)) ∨
    (busWrite w = false ∧ decodeBus w = .rd (busAddr w)) := by
  unfold decodeBus
  split_ifs <;> simp_all

/-- Which transition a state takes, by its next sample (R150, R197, R210). -/
theorem nextAction_cases (s : State) :
    ((samplePorts s).rst = true ∧ nextAction s = .reset) ∨
    ((samplePorts s).rst = false ∧ (samplePorts s).sel = true ∧
      nextAction s = .transaction (busWord (samplePorts s).we (samplePorts s).addr (samplePorts s).wdata)) ∨
    (sequencerTurn (samplePorts s) = true ∧ s.busy = true ∧ nextAction s = .operation s.i) ∨
    (sequencerTurn (samplePorts s) = true ∧ s.busy = false ∧ nextAction s = .idle) := by
  unfold nextAction sequencerTurn
  cases hr : (samplePorts s).rst <;> cases hs : (samplePorts s).sel <;> cases hb : s.busy <;> simp [hr, hs]

/-- What a bus word can do to the state once it is the host's turn: give a byte, or what MemWrite does (R161, R162). -/
theorem exec_decodeBus (w : BitVec 16) (s : State) :
    (busWrite w = false ∧ exec (decodeBus w) s = .next (giveByte (memRead s (busAddr w)) s)) ∨
    (busWrite w = true ∧ exec (decodeBus w) s = .next (memWrite (busAddr w) (busData w) s)) := by
  have hc := execWr_ctrl s
  unfold decodeBus
  split
  · subst_vars
    exact .inr ⟨by decide, hc.1.symm⟩
  · split
    · subst_vars
      exact .inr ⟨by decide, hc.2.1.symm⟩
    · split
      · subst_vars
        exact .inr ⟨by decide, hc.2.2.symm⟩
      · split
        · exact .inr ⟨‹_›, rfl⟩
        · exact .inl ⟨Bool.eq_false_iff.mpr ‹_›, rfl⟩

/-- The fields of a bus word are what it was made of (R86). -/
theorem busWord_fields (we : Bool) (addr : Addr) (v : Byte) :
    busWrite (busWord we addr v) = we ∧ busAddr (busWord we addr v) = addr ∧ busData (busWord we addr v) = v := by
  refine ⟨?_, ?_, ?_⟩
  · rw [busWrite, busWord, BitVec.getLsbD_append, BitVec.getLsbD_append]
    cases we <;> rfl
  · apply BitVec.eq_of_getLsbD_eq
    intro k hk
    simp only [busAddr, busWord, BitVec.getLsbD_extractLsb', BitVec.getLsbD_append]
    simp [hk]
  · apply BitVec.eq_of_getLsbD_eq
    intro k hk
    simp only [busData, busWord, BitVec.getLsbD_extractLsb', BitVec.getLsbD_append]
    simp [hk]

/-- A step word that decodes runs what it decodes to. -/
theorem runWord_step {w : StepIdx} {i : Instr} (h : decodeStep w = .ok i) (s : State) :
    runWord (.step w) s = exec i s := by
  simp only [runWord, decode, h]

/-- A step word that selects no operation leaves the sequencer stuck (R85). -/
theorem runWord_reserved {w : StepIdx} (h : decodeStep w = .error .reservedStepWord) (s : State) :
    runWord (.step w) s = .fault .sequencerStuck := by
  simp only [runWord, decode, h]

/-- A bus word runs what it decodes to; there is no illegal one (R89). -/
theorem runWord_bus (w : BitVec 16) (s : State) : runWord (.bus w) s = exec (decodeBus w) s := rfl

/-- What a step is on each kind of sample: the whole of `step`, said once. -/
theorem step_cases (s : State) :
    ((samplePorts s).rst = true ∧ step s = .next (resetTransition (advance s))) ∨
    ((samplePorts s).rst = false ∧ (samplePorts s).sel = true ∧ (samplePorts s).we = false ∧
      step s = .next (giveByte (memRead s (samplePorts s).addr) (advance s))) ∨
    ((samplePorts s).rst = false ∧ (samplePorts s).sel = true ∧ (samplePorts s).we = true ∧
      step s = .next (memWrite (samplePorts s).addr (samplePorts s).wdata (advance s))) ∨
    (sequencerTurn (samplePorts s) = true ∧ s.busy = true ∧ step s = runWord (.step s.i) (advance s)) ∨
    (sequencerTurn (samplePorts s) = true ∧ s.busy = false ∧ step s = .next (advance s)) := by
  rcases nextAction_cases s with ⟨h, e⟩ | ⟨hr, hs, e⟩ | ⟨ht, hb, e⟩ | ⟨ht, hb, e⟩
  · exact .inl ⟨h, by rw [step, e, takeAction]⟩
  · obtain ⟨h1, h2, h3⟩ := busWord_fields (samplePorts s).we (samplePorts s).addr (samplePorts s).wdata
    rcases exec_decodeBus (busWord (samplePorts s).we (samplePorts s).addr (samplePorts s).wdata) (advance s)
      with ⟨hw, he⟩ | ⟨hw, he⟩
    · refine .inr (.inl ⟨hr, hs, h1 ▸ hw, ?_⟩)
      rw [step, e, takeAction, runWord, decode]
      rw [h2] at he
      exact he
    · refine .inr (.inr (.inl ⟨hr, hs, h1 ▸ hw, ?_⟩))
      rw [step, e, takeAction, runWord, decode]
      rw [h2, h3] at he
      exact he
  · exact .inr (.inr (.inr (.inl ⟨ht, hb, by rw [step, e, takeAction]⟩)))
  · exact .inr (.inr (.inr (.inr ⟨ht, hb, by rw [step, e, takeAction]⟩)))

end Sys2Proof.Machine
end

