-- ==== Sys2Proof/Tests/Slice0.lean ====
section
/-! SUPPORT. The model's own tests. Expected values come from spec/: the tables of 95_test_vectors.md (named by section in
each docstring) and words written out by hand from 30_encoding.md. A `test_witness_` theorem shows a concrete state and
operands that meet the hypotheses of the obligation it is named after. -/

namespace Sys2Proof.Tests

open Sys2Proof Sys2Proof.Machine

/-- An outcome is a next state with a given property. -/
def nextAnd (o : Host.Outcome State Fault Refusal) (p : State → Bool) : Bool :=
  match o with
  | .next t => p t
  | .fault _ => false
  | .refused _ => false

/-- An idle core: `H` = IV and a few bytes of BLK written. -/
def idleCore : State := { State.reset with blk := [(0, 0x00#8), (5, 0xA7#8), (9, 0x33#8)] }

/-- The block `00 01 02 .. 3f` (95_test_vectors.md section 4.5). -/
def countingBlock : Memory := (List.range 64).map fun n => (n, BitVec.ofNat 8 n)

/-- A busy core about to perform the operation of counter value `i`, with the inputs of 95_test_vectors.md section 4.5. -/
def busyCore (i : StepIdx) : State :=
  { State.reset with
    w := ⟨0x67452301#32, 0xEFCDAB89#32, 0x98BADCFE#32, 0x10325476#32⟩, blk := countingBlock, i := i, busy := true }

/-! ### Well-formedness: a term that each check refuses, and the boundary terms it accepts -/

theorem test_wf_refuses :
    (Instr.stepF 16#7).wf = false ∧ (Instr.stepG 15#7).wf = false ∧ (Instr.stepG 32#7).wf = false ∧
    (Instr.stepH 31#7).wf = false ∧ (Instr.stepH 48#7).wf = false ∧ (Instr.stepI 47#7).wf = false ∧
    (Instr.stepI 64#7).wf = false ∧ (Instr.wr 0x50#7 0x00#8).wf = false ∧ (Instr.wr 0x50#7 0x01#8).wf = false ∧
    (Instr.wr 0x50#7 0x02#8).wf = false := by decide

theorem test_wf_accepts :
    (Instr.stepF 15#7).wf = true ∧ (Instr.stepG 16#7).wf = true ∧ (Instr.stepG 31#7).wf = true ∧
    (Instr.stepH 32#7).wf = true ∧ (Instr.stepH 47#7).wf = true ∧ (Instr.stepI 48#7).wf = true ∧
    (Instr.stepI 63#7).wf = true ∧ (Instr.wr 0x50#7 0x03#8).wf = true ∧ (Instr.wr 0x4F#7 0x00#8).wf = true ∧
    (Instr.wr 0x51#7 0x02#8).wf = true := by decide

/-! ### Decoding: words written out bit by bit from R81, R82, R86 and R87 -/

/-- Fields FOLD, RND, GRP, COL of R81. -/
theorem test_decode_stepF :
    decodeStep (0b0#1 ++ 0b00#2 ++ 0b00#2 ++ 0b00#2) = .ok (.stepF 0#7) ∧
    decodeStep (0b0#1 ++ 0b00#2 ++ 0b11#2 ++ 0b11#2) = .ok (.stepF 15#7) := ⟨by rfl, by rfl⟩

theorem test_decode_stepG :
    decodeStep (0b0#1 ++ 0b01#2 ++ 0b00#2 ++ 0b00#2) = .ok (.stepG 16#7) ∧
    decodeStep (0b0#1 ++ 0b01#2 ++ 0b11#2 ++ 0b10#2) = .ok (.stepG 30#7) := ⟨by rfl, by rfl⟩

theorem test_decode_stepH :
    decodeStep (0b0#1 ++ 0b10#2 ++ 0b00#2 ++ 0b01#2) = .ok (.stepH 33#7) ∧
    decodeStep (0b0#1 ++ 0b10#2 ++ 0b11#2 ++ 0b11#2) = .ok (.stepH 47#7) := ⟨by rfl, by rfl⟩

theorem test_decode_stepI :
    decodeStep (0b0#1 ++ 0b11#2 ++ 0b00#2 ++ 0b00#2) = .ok (.stepI 48#7) ∧
    decodeStep (0b0#1 ++ 0b11#2 ++ 0b11#2 ++ 0b11#2) = .ok (.stepI 63#7) := ⟨by rfl, by rfl⟩

theorem test_decode_fold : decodeStep (0b1#1 ++ 0b00#2 ++ 0b00#2 ++ 0b00#2) = .ok .fold := by rfl

/-- R85: the first and the last reserved word, and one whose low bits would be a STEP.F. -/
theorem test_decode_reserved :
    decodeStep 0b1000001#7 = .error .reservedStepWord ∧ decodeStep 0b1111111#7 = .error .reservedStepWord ∧
    decodeStep 0b1010000#7 = .error .reservedStepWord := ⟨by rfl, by rfl, by rfl⟩

/-- Fields W, ADDR, DATA of R86; the DATA field of a read is ignored (section 5, row 11). -/
theorem test_decode_rd :
    decodeBus (0b0#1 ++ 0b1010001#7 ++ 0b00000000#8) = .rd 0x51#7 ∧ decodeBus 0x05FF#16 = .rd 0x05#7 ∧
    decodeBus 0x5001#16 = .rd 0x50#7 := by decide

theorem test_decode_wr :
    decodeBus (0b1#1 ++ 0b0111000#7 ++ 0b00011000#8) = .wr 56#7 0x18#8 ∧ decodeBus 0xBFFF#16 = .wr 63#7 0xFF#8 ∧
    decodeBus 0xD003#16 = .wr 0x50#7 0x03#8 ∧ decodeBus 0xD155#16 = .wr 0x51#7 0x55#8 := by decide

theorem test_decode_commands :
    decodeBus (0b1#1 ++ 0b1010000#7 ++ 0b00000000#8) = .nop ∧
    decodeBus (0b1#1 ++ 0b1010000#7 ++ 0b00000001#8) = .init ∧
    decodeBus (0b1#1 ++ 0b1010000#7 ++ 0b00000010#8) = .start := by decide

/-- The words of 30_encoding.md R94 and 95_test_vectors.md section 5. -/
theorem test_encode :
    encode (.stepG 21#7) = .step 0x15#7 ∧ encode .fold = .step 0x40#7 ∧ encode (.rd 0x51#7) = .bus 0x5100#16 ∧
    encode (.wr 9#7 0x33#8) = .bus 0x8933#16 ∧ encode .nop = .bus 0xD000#16 ∧ encode .init = .bus 0xD001#16 ∧
    encode .start = .bus 0xD002#16 := by decide

theorem test_decodeTableWord :
    decodeTableWord 8 0x2F = some (.stepH 47#7) ∧ decodeTableWord 8 0x40 = some .fold ∧
    decodeTableWord 8 0x41 = none ∧ decodeTableWord 16 0xD002 = some .start ∧
    decodeTableWord 16 0x4F00 = some (.rd 0x4F#7) := by decide

/-! ### Tables and arithmetic units -/

/-- The decimal column of R112. -/
theorem test_kTable_decimal :
    kRound0.map BitVec.toNat =
    [3614090360, 3905402710, 606105819, 3250441966, 4118548399, 1200080426, 2821735955, 4249261313,
     1770035416, 2336552879, 4294925233, 2304563134, 1804603682, 4254626195, 2792965006, 1236535329] ∧
    kRound1.map BitVec.toNat =
    [4129170786, 3225465664, 643717713, 3921069994, 3593408605, 38016083, 3634488961, 3889429448,
     568446438, 3275163606, 4107603335, 1163531501, 2850285829, 4243563512, 1735328473, 2368359562] ∧
    kRound2.map BitVec.toNat =
    [4294588738, 2272392833, 1839030562, 4259657740, 2763975236, 1272893353, 4139469664, 3200236656,
     681279174, 3936430074, 3572445317, 76029189, 3654602809, 3873151461, 530742520, 3299628645] ∧
    kRound3.map BitVec.toNat =
    [4096336452, 1126891415, 2878612391, 4237533241, 1700485571, 2399980690, 4293915773, 2240044497,
     1873313359, 4264355552, 2734768916, 1309151649, 4149444226, 3174756917, 718787259, 3951481745] := by decide

/-- Section 4.1. -/
theorem test_add32_sum4 :
    add32 0x7FFFFFFF#32 0x00000001#32 = 0x80000000#32 ∧ add32 0xFFFFFFFF#32 0x00000001#32 = 0x00000000#32 ∧
    add32 0xB5527BEB#32 0xEFCDAB89#32 = 0xA5202774#32 ∧
    sum4 0x98BADCFE#32 0x67452301#32 0xD76AA478#32 0x80636261#32 = 0x57CE06D8#32 ∧
    sum4 0xFFFFFFFF#32 0xFFFFFFFF#32 0xFFFFFFFF#32 0xFFFFFFFF#32 = 0xFFFFFFFC#32 := by decide

/-- Section 4.2. -/
theorem test_rotl32 :
    rotl32 0x80000000#32 1#5 = 0x00000001#32 ∧ rotl32 0x12345678#32 23#5 = 0x3C091A2B#32 ∧
    rotl32 0xD76AA4F7#32 7#5 = 0xB5527BEB#32 ∧ rotl32 0x80000001#32 31#5 = 0xC0000000#32 ∧
    rotl32 0x12345678#32 0#5 = 0x12345678#32 := by decide

/-- Section 4.3, second row, and NOT32. -/
theorem test_round_functions :
    roundF 0xFFFF0000#32 0x12345678#32 0x9ABCDEF0#32 = 0x1234DEF0#32 ∧
    roundG 0xFFFF0000#32 0x12345678#32 0x9ABCDEF0#32 = 0x9ABC0008#32 ∧
    roundH 0xFFFF0000#32 0x12345678#32 0x9ABCDEF0#32 = 0x77778888#32 ∧
    roundI 0xFFFF0000#32 0x12345678#32 0x9ABCDEF0#32 = 0xEDCB7777#32 ∧
    not32 0x10325476#32 = 0xEFCDAB89#32 := by decide

/-- Section 4.4: the block word index of every step, row by row, and the first block word of `61 62 63 80`. -/
theorem test_sched_unpack :
    (List.range 64).map (fun n => (sched (BitVec.ofNat 7 n)).toNat) =
      [0, 1, 2, 3, 4, 5, 6, 7, 8, 9, 10, 11, 12, 13, 14, 15] ++ [1, 6, 11, 0, 5, 10, 15, 4, 9, 14, 3, 8, 13, 2, 7, 12] ++
      [5, 8, 11, 14, 1, 4, 7, 10, 13, 0, 3, 6, 9, 12, 15, 2] ++ [0, 7, 14, 5, 12, 3, 10, 1, 8, 15, 6, 13, 4, 11, 2, 9] ∧
    unpack (blockView [0x61#8, 0x62#8, 0x63#8, 0x80#8]) 0#4 = 0x80636261#32 := by decide

/-- The source's known vector for "abc" (section 1), as a value of the reference functions. -/
theorem test_digest_abc :
    digestState [0x61#8, 0x62#8, 0x63#8] = ⟨0x98500190#32, 0xB04FD23C#32, 0x7D3F96D6#32, 0x727FE128#32⟩ ∧
    finalize ⟨0x98500190#32, 0xB04FD23C#32, 0x7D3F96D6#32, 0x727FE128#32⟩ = "900150983cd24fb0d6963f7d28e17f72".toList := by
  decide +kernel

/-! ### The block buffer -/

/-- A write keeps the addresses rising, replaces a listed byte, and leaves the rest. -/
theorem test_memory :
    Memory.write [(3, 0x11#8), (7, 0x22#8)] 5 0x33#8 = [(3, 0x11#8), (5, 0x33#8), (7, 0x22#8)] ∧
    Memory.write [(3, 0x11#8)] 3 0x44#8 = [(3, 0x44#8)] ∧ Memory.wf [(3, 0x11#8), (63, 0x22#8)] = true ∧
    Memory.wf [(64, 0x11#8)] = false ∧ Memory.wf [(3, 0x11#8), (3, 0x22#8)] = false := by decide

theorem test_reset_wf : Memory.wf State.reset.blk = true := by decide

/-! ### One instruction each -/

/-- Section 4.5, rows 0 and 15. -/
theorem test_stepF :
    nextAnd (exec (.stepF 0#7) (busyCore 0#7)) (fun t =>
      t.w == ⟨0x10325476#32, 0x26206776#32, 0xEFCDAB89#32, 0x98BADCFE#32⟩ && t.i == 1#7) = true ∧
    nextAnd (exec (.stepF 15#7) (busyCore 15#7)) (fun t =>
      t.w == ⟨0x10325476#32, 0x46EFE81A#32, 0xEFCDAB89#32, 0x98BADCFE#32⟩ && t.i == 16#7) = true := by decide

/-- Section 4.5, rows 16 and 31. -/
theorem test_stepG :
    nextAnd (exec (.stepG 16#7) (busyCore 16#7)) (fun t =>
      t.w == ⟨0x10325476#32, 0x8E086986#32, 0xEFCDAB89#32, 0x98BADCFE#32⟩ && t.i == 17#7) = true ∧
    nextAnd (exec (.stepG 31#7) (busyCore 31#7)) (fun t =>
      t.w == ⟨0x10325476#32, 0x8408AE2B#32, 0xEFCDAB89#32, 0x98BADCFE#32⟩ && t.i == 32#7) = true := by decide

/-- Section 4.5, rows 32 and 47. -/
theorem test_stepH :
    nextAnd (exec (.stepH 32#7) (busyCore 32#7)) (fun t =>
      t.w == ⟨0x10325476#32, 0x4976F117#32, 0xEFCDAB89#32, 0x98BADCFE#32⟩ && t.i == 33#7) = true ∧
    nextAnd (exec (.stepH 47#7) (busyCore 47#7)) (fun t =>
      t.w == ⟨0x10325476#32, 0xA79CCBDB#32, 0xEFCDAB89#32, 0x98BADCFE#32⟩ && t.i == 48#7) = true := by decide

/-- Section 4.5, rows 48 and 63. -/
theorem test_stepI :
    nextAnd (exec (.stepI 48#7) (busyCore 48#7)) (fun t =>
      t.w == ⟨0x10325476#32, 0x69BD1ABE#32, 0xEFCDAB89#32, 0x98BADCFE#32⟩ && t.i == 49#7) = true ∧
    nextAnd (exec (.stepI 63#7) (busyCore 63#7)) (fun t =>
      t.w == ⟨0x10325476#32, 0x558BD8BB#32, 0xEFCDAB89#32, 0x98BADCFE#32⟩ && t.i == 64#7) = true := by decide

/-- Section 4.6, first and last row. -/
theorem test_fold :
    nextAnd (exec .fold { busyCore 64#7 with w := ⟨0x7246FAD3#32, 0x14E45506#32, 0xFF4EA3EB#32, 0x6E10A476#32⟩ })
      (fun t => t.h == ⟨0xD98C1DD4#32, 0x04B2008F#32, 0x980980E9#32, 0x7E42F8EC#32⟩ && t.i == 0#7 && !t.busy) = true ∧
    nextAnd (exec .fold { busyCore 64#7 with
        h := ⟨0x80000000#32, 0x80000000#32, 0x7FFFFFFF#32, 0x00000001#32⟩,
        w := ⟨0x80000000#32, 0x7FFFFFFF#32, 0x00000001#32, 0xFFFFFFFF#32⟩ })
      (fun t => t.h == ⟨0x00000000#32, 0xFFFFFFFF#32, 0x80000000#32, 0x00000000#32⟩) = true := by decide

/-- Section 5, rows 1 to 5, 11, 14, 21 and 22. -/
theorem test_rd_idle :
    [0x5100#16, 0x4000#16, 0x4300#16, 0x4400#16, 0x4F00#16, 0x05FF#16, 0x5000#16, 0x5200#16, 0x7F00#16].map (fun w =>
      nextAnd (exec (decodeBus w) idleCore) (fun t => t.h == idleCore.h && t.blk == idleCore.blk)) =
      List.replicate 9 true ∧
    [0x51#7, 0x40#7, 0x43#7, 0x44#7, 0x4F#7, 0x05#7, 0x50#7, 0x52#7, 0x7F#7].map (memRead idleCore) =
      [0x00#8, 0x01#8, 0x67#8, 0x89#8, 0x10#8, 0xA7#8, 0x00#8, 0x00#8, 0x00#8] := by decide

/-- Section 5, rows 25, 29 and 30: reads while busy. -/
theorem test_rd_busy :
    nextAnd (exec (.rd 0x51#7) (busyCore 64#7)) (fun t => t.returned == [0x01#8]) = true ∧
    nextAnd (exec (.rd 0x40#7) (busyCore 7#7)) (fun t => t.returned == [0x01#8]) = true ∧
    nextAnd (exec (.rd 0x09#7) (busyCore 7#7)) (fun t => t.returned == [0x09#8] && t.busy && t.i == 7#7) = true := by
  decide

/-- Section 5, rows 7 to 9. -/
theorem test_wr_blk :
    nextAnd (exec (decodeBus 0x8080#16) State.reset) (fun t => t.blk == [(0, 0x80#8)]) = true ∧
    nextAnd (exec (decodeBus 0xB818#16) State.reset) (fun t => t.blk == [(56, 0x18#8)]) = true ∧
    nextAnd (exec (decodeBus 0xBFFF#16) idleCore) (fun t => blkByte t 63#6 == 0xFF#8 && blkByte t 5#6 == 0xA7#8) =
      true := by decide

/-- Section 5, rows 12, 13, 18 to 20, 23, 24 (idle) and 26 (busy): no state change. -/
theorem test_wr_dropped :
    [0xC055#16, 0xD155#16, 0xD003#16, 0xD0FF#16, 0xD080#16, 0xD2AA#16, 0xFFAA#16].map (fun w =>
      nextAnd (exec (decodeBus w) idleCore) (fun t => t == idleCore)) = List.replicate 7 true ∧
    nextAnd (exec (decodeBus 0x8011#16) (busyCore 3#7)) (fun t => t == busyCore 3#7) = true := by decide

/-- Section 5, row 15, and NOP while busy. -/
theorem test_nop :
    nextAnd (exec .nop idleCore) (fun t => t == idleCore) = true ∧
    nextAnd (exec .nop (busyCore 3#7)) (fun t => t == busyCore 3#7) = true := by decide

/-- Section 5, rows 16 and 27. -/
theorem test_init :
    nextAnd (exec .init { idleCore with h := ⟨1, 2, 3, 4⟩ }) (fun t => t == idleCore) = true ∧
    nextAnd (exec .init { busyCore 3#7 with h := ⟨1, 2, 3, 4⟩ }) (fun t => t.h == ⟨1, 2, 3, 4⟩) = true := by decide

/-- Section 5, rows 17 and 28. -/
theorem test_start :
    nextAnd (exec .start { idleCore with h := ⟨1, 2, 3, 4⟩ }) (fun t =>
      t.w == ⟨1, 2, 3, 4⟩ && t.i == 0#7 && t.busy && t.h == ⟨1, 2, 3, 4⟩) = true ∧
    nextAnd (exec .start (busyCore 3#7)) (fun t => t == busyCore 3#7) = true := by decide

/-! ### One step -/

/-- A placed word is the first instruction that runs after reset. -/
theorem test_withFetchWord :
    nextAnd (step (State.reset.withFetchWord 16 0xD002)) (fun t => t.busy && t.i == 0#7) = true ∧
    nextAnd (step (State.reset.withFetchWord 16 0x5100)) (fun t => t.returned == [0x00#8]) = true ∧
    nextAnd (step (State.reset.withFetchWord 8 0x40)) (fun t => !t.busy && t.h == ivQuad) = true := by decide

/-- Reset wins over a transaction presented with it and over a busy sequencer (R210). -/
theorem test_reset_precedence :
    nextAnd (step { busyCore 5#7 with inputs := [⟨true, true, true, 0x00#7, 0xFF#8⟩] }) (fun t =>
      !t.busy && t.i == 0#7 && t.blk == [] && t.h == ivQuad) = true := by decide

/-- A transaction leaves the sequencer where it is; without one the sequencer moves, and an idle core does not. -/
theorem test_turns :
    nextAnd (step { busyCore 5#7 with inputs := [statusSample] }) (fun t => t.i == 5#7 && t.returned == [0x01#8]) = true ∧
    nextAnd (step (busyCore 5#7)) (fun t => t.i == 6#7) = true ∧
    nextAnd (step State.reset) (fun t => t == State.reset) = true := by decide

/-- The output port `busy` is the bit that STATUS returns (R160). -/
theorem test_busyPort :
    busyPort (busyCore 5#7) = 1#1 ∧ (memRead (busyCore 5#7) 0x51#7).extractLsb' 0 1 = 1#1 ∧ busyPort idleCore = 0#1 := by
  decide

/-! ### Witnesses: states and operands that meet the hypotheses of the obligations, clause by clause -/

/-- A busy core at the end of a list of port samples. -/
def busyWith (i : StepIdx) (es : List Ports) : State := { busyCore i with inputs := es }

/-- An idle core with samples of the ports to come. -/
def idleWith (es : List Ports) : State := { idleCore with inputs := es }

theorem test_witness_DecodeOfEncode :
    (Instr.stepF 15#7).wf = true ∧ (Instr.stepI 63#7).wf = true ∧ Instr.fold.wf = true ∧ (Instr.rd 0x7F#7).wf = true ∧
    (Instr.wr 0x50#7 0x03#8).wf = true ∧ Instr.start.wf = true := by decide

/-- A step word; a write; a read whose DATA field is not 0. -/
theorem test_witness_EncodeOfDecode :
    decode (.step 0x3F#7) = .ok (.stepI 63#7) ∧
    (decode (.bus 0xD003#16) = .ok (.wr 0x50#7 0x03#8) ∧ ∀ a, Instr.wr 0x50#7 0x03#8 ≠ .rd a) ∧
    (decode (.bus 0x05FF#16) = .ok (.rd 0x05#7) ∧ ∃ a, Instr.rd 0x05#7 = .rd a) :=
  ⟨by rfl, ⟨by rfl, fun _ => nofun⟩, by rfl, _, rfl⟩

/-- The first and the last word of each clause. -/
theorem test_witness_StepWordSelectsOperation :
    ((0x00#7).toNat / 16 = 0 ∧ (0x0F#7).toNat / 16 = 0) ∧ ((0x10#7).toNat / 16 = 1 ∧ (0x1F#7).toNat / 16 = 1) ∧
    ((0x20#7).toNat / 16 = 2 ∧ (0x2F#7).toNat / 16 = 2) ∧ ((0x30#7).toNat / 16 = 3 ∧ (0x3F#7).toNat / 16 = 3) ∧
    (0x40#7).toNat = 0x40 ∧ 0x41 ≤ (0x41#7).toNat ∧ 0x41 ≤ (0x7F#7).toNat := by decide

theorem test_witness_BusWordSelectsTransaction :
    ¬ (0x50#7 = (0x50#7 : Addr) ∧ (0x03#8).toNat ≤ 2) ∧ ¬ (0x4F#7 = (0x50#7 : Addr) ∧ (0x02#8).toNat ≤ 2) := by decide

/-- A transaction and an operation of the sequencer. -/
theorem test_witness_StepRunsDecodedWord :
    (nextAction (idleWith [statusSample]) = .transaction 0x5100#16 ∧ decode (.bus 0x5100#16) = .ok (.rd 0x51#7)) ∧
    (nextAction (busyCore 5#7) = .operation 5#7 ∧ decode (.step 5#7) = .ok (.stepF 5#7)) :=
  ⟨⟨by decide, by rfl⟩, by decide, by rfl⟩

theorem test_witness_PlacedWordRunsNext :
    decode (.bus 0xFFFF#16) = .ok (.wr 0x7F#7 0xFF#8) ∧ decode (.step 0x40#7) = .ok .fold := ⟨by rfl, by rfl⟩

/-- A sample with reset, one with a transaction, one with neither, and no sample; busy and idle. -/
theorem test_witness_PortsChooseTheTransition :
    ((idleWith [⟨true, true, true, 0#7, 0#8⟩]).inputs = ⟨true, true, true, 0#7, 0#8⟩ :: [] ∧
      (⟨true, true, true, 0#7, 0#8⟩ : Ports).rst = true) ∧
    ((idleWith [statusSample]).inputs = statusSample :: [] ∧ statusSample.rst = false ∧ statusSample.sel = true) ∧
    ((busyWith 0#7 [Ports.idle]).inputs = Ports.idle :: [] ∧ Ports.idle.rst = false ∧ Ports.idle.sel = false ∧
      (busyWith 0#7 [Ports.idle]).busy = true) ∧
    (idleCore.inputs = [] ∧ idleCore.busy = false) := by decide

theorem test_witness_StepFResult :
    ((busyCore 0#7).busy = true ∧ (busyCore 0#7).i = 0#7 ∧ (0#7).toNat ≤ 15) ∧
    ((busyCore 15#7).busy = true ∧ (busyCore 15#7).i = 15#7 ∧ (15#7).toNat ≤ 15) := by decide

theorem test_witness_StepGResult :
    ((busyCore 16#7).busy = true ∧ (busyCore 16#7).i = 16#7 ∧ 16 ≤ (16#7).toNat ∧ (16#7).toNat ≤ 31) ∧
    ((busyCore 31#7).busy = true ∧ (busyCore 31#7).i = 31#7 ∧ 16 ≤ (31#7).toNat ∧ (31#7).toNat ≤ 31) := by decide

theorem test_witness_StepHResult :
    ((busyCore 32#7).busy = true ∧ (busyCore 32#7).i = 32#7 ∧ 32 ≤ (32#7).toNat ∧ (32#7).toNat ≤ 47) ∧
    ((busyCore 47#7).busy = true ∧ (busyCore 47#7).i = 47#7 ∧ 32 ≤ (47#7).toNat ∧ (47#7).toNat ≤ 47) := by decide

theorem test_witness_StepIResult :
    ((busyCore 48#7).busy = true ∧ (busyCore 48#7).i = 48#7 ∧ 48 ≤ (48#7).toNat ∧ (48#7).toNat ≤ 63) ∧
    ((busyCore 63#7).busy = true ∧ (busyCore 63#7).i = 63#7 ∧ 48 ≤ (63#7).toNat ∧ (63#7).toNat ≤ 63) := by decide

theorem test_witness_FoldResult : (busyCore 64#7).busy = true ∧ (busyCore 64#7).i = 64#7 := by decide

/-- Each of the four operations answers a next state somewhere. -/
theorem test_witness_StepFrame :
    (∃ t, exec (.stepF 0#7) (busyCore 0#7) = .next t) ∧ (∃ t, exec (.stepG 16#7) (busyCore 16#7) = .next t) ∧
    (∃ t, exec (.stepH 32#7) (busyCore 32#7) = .next t) ∧ (∃ t, exec (.stepI 63#7) (busyCore 63#7) = .next t) :=
  ⟨⟨_, rfl⟩, ⟨_, rfl⟩, ⟨_, rfl⟩, ⟨_, rfl⟩⟩

theorem test_witness_FoldFrame : ∃ t, exec .fold (busyCore 64#7) = .next t := ⟨_, rfl⟩

theorem test_witness_StepsComputeStepval :
    (busyCore 63#7).busy = true ∧ (busyCore 63#7).i.toNat ≤ 63 := by decide

theorem test_witness_StepIsBijection :
    (busyCore 63#7).i.toNat ≤ 63 ∧ decode (.step (busyCore 63#7).i) = .ok (.stepI 63#7) ∧
    ∃ t, exec (.stepI 63#7) (busyCore 63#7) = .next t := ⟨by decide, by rfl, _, rfl⟩

/-- An idle core, and a busy one whose counter selects another operation; the same for FOLD. -/
theorem test_witness_NotEnabledStops :
    idleCore.busy = false ∧ (busyCore 64#7).i ≠ 0#7 ∧ (busyCore 63#7).i ≠ 64#7 := by decide

theorem test_witness_ReservedCounterUnreachable :
    ((busyCore 65#7).busy = true ∧ 65 ≤ (busyCore 65#7).i.toNat ∧
      sequencerTurn (samplePorts (busyCore 65#7)) = true) ∧
    ((busyCore 127#7).busy = true ∧ 65 ≤ (busyCore 127#7).i.toNat ∧
      sequencerTurn (samplePorts (busyCore 127#7)) = true) ∧ Reachable State.reset :=
  ⟨by decide, by decide, Reachable.reset []⟩

/-- The first and the last address of each clause. -/
theorem test_witness_RdResult :
    ((0x00#7).toNat ≤ 0x3F ∧ (0x3F#7).toNat ≤ 0x3F) ∧
    ((0x40 ≤ (0x40#7).toNat ∧ (0x40#7).toNat ≤ 0x4F) ∧ (0x40 ≤ (0x4F#7).toNat ∧ (0x4F#7).toNat ≤ 0x4F)) ∧
    (0x51#7).toNat = 0x51 ∧ (0x50#7).toNat = 0x50 ∧ 0x52 ≤ (0x52#7).toNat ∧ 0x52 ≤ (0x7F#7).toNat := by decide

theorem test_witness_RdFrame : ∃ t, exec (.rd 0x3F#7) (busyCore 5#7) = .next t := ⟨_, rfl⟩

theorem test_witness_WrResult :
    (busyCore 5#7).busy = true ∧ (idleCore.busy = false ∧ (0x00#7).toNat ≤ 0x3F ∧ (0x3F#7).toNat ≤ 0x3F) ∧
    (idleCore.busy = false ∧ (0x50#7).toNat = 0x50) ∧
    ((0x40 ≤ (0x40#7).toNat ∧ (0x40#7).toNat ≠ 0x50) ∧ (0x40 ≤ (0x51#7).toNat ∧ (0x51#7).toNat ≠ 0x50) ∧
      (0x40 ≤ (0x7F#7).toNat ∧ (0x7F#7).toNat ≠ 0x50)) := by decide

theorem test_witness_WrFrame :
    (∃ t, exec (.wr 0x3F#7 0xFF#8) idleCore = .next t) ∧ (62#6).toNat ≠ (0x3F#7).toNat ∧
    (¬ (0x50#7 = (0x50#7 : Addr) ∧ 0x02#8 = 0x01#8) ∧ ∃ t, exec (.wr 0x50#7 0x02#8) idleCore = .next t) ∧
    (¬ (0x50#7 = (0x50#7 : Addr) ∧ 0x01#8 = 0x02#8) ∧ ∃ t, exec (.wr 0x50#7 0x01#8) idleCore = .next t) :=
  ⟨⟨_, rfl⟩, by decide, ⟨by decide, _, rfl⟩, by decide, _, rfl⟩

/-- A value with bits above 1 set, and the value 3. -/
theorem test_witness_CtrlWritesAreCommands :
    (busyCore 5#7).busy = true ∧ idleCore.busy = false ∧ (0x04#8).extractLsb' 2 6 ≠ 0#6 ∧
    (0x03#8).extractLsb' 0 2 = 0b11#2 := by decide

theorem test_witness_InitResult :
    idleCore.busy = false ∧ (busyCore 5#7).busy = true ∧ ∃ t, exec .init idleCore = .next t :=
  ⟨by decide, by decide, _, rfl⟩

theorem test_witness_StartResult : idleCore.busy = false ∧ (busyCore 5#7).busy = true := by decide

theorem test_witness_CommandFrame :
    (∃ t, exec .nop idleCore = .next t) ∧ (∃ t, exec .init idleCore = .next t) ∧
    (∃ t, exec .start idleCore = .next t) := ⟨⟨_, rfl⟩, ⟨_, rfl⟩, _, rfl⟩

theorem test_witness_BusyLocksHost :
    (busyCore 64#7).busy = true ∧ (0x8011#16).getLsbD 15 = true ∧ (0x5100#16).getLsbD 15 = false ∧
    (samplePorts (busyWith 64#7 [⟨true, false, false, 0#7, 0#8⟩])).rst = true := by decide

theorem test_witness_UnmappedAndReadOnly :
    (0x52 ≤ (0x52#7).toNat ∧ 0x52 ≤ (0x7F#7).toNat) ∧ (0x40 ≤ (0x40#7).toNat ∧ (0x40#7).toNat ≤ 0x4F) ∧
    (0x40 ≤ (0x4F#7).toNat ∧ (0x4F#7).toNat ≤ 0x4F) ∧ (0x51#7).toNat = 0x51 := by decide

theorem test_witness_StateWindow : (0 < 4 ∧ 0 < 4) ∧ 3 < 4 ∧ 3 < 4 := by decide

theorem test_witness_ByteWriteChangesItsBits :
    idleCore.busy = false ∧ (0x3F#7).toNat ≤ 0x3F ∧ (∃ t, exec (.wr 0x3F#7 0xFF#8) idleCore = .next t) ∧ 31 < 32 :=
  ⟨by decide, by decide, ⟨_, rfl⟩, by decide⟩

theorem test_witness_BlockWordLittleEndian : 0 < 16 ∧ 15 < 16 := by decide

theorem test_witness_RepeatedWritesIdempotent :
    ((∃ a v, Instr.wr 0x3F#7 0xFF#8 = .wr a v ∧ a.toNat ≤ 0x3F) ∧ ∃ t, exec (.wr 0x3F#7 0xFF#8) idleCore = .next t) ∧
    (∃ t, exec .nop idleCore = .next t) ∧ (∃ t, exec .init idleCore = .next t) :=
  ⟨⟨⟨_, _, rfl, by decide⟩, _, rfl⟩, ⟨_, rfl⟩, _, rfl⟩

/-- Each host error occurs: a write while busy, a reserved command, an unmapped write and read, a read-only write, and
START with bytes of BLK not written. -/
theorem test_witness_HostErrorOutcomes :
    hostErrors (busyCore 5#7) true 0x00#7 0x11#8 = [.writeWhileBusy] ∧
    hostErrors idleCore true 0x50#7 0x03#8 = [.reservedCommand] ∧
    hostErrors idleCore true 0x7F#7 0xAA#8 = [.unmappedAccess] ∧
    hostErrors idleCore false 0x52#7 0x00#8 = [.unmappedAccess] ∧
    hostErrors idleCore true 0x40#7 0x55#8 = [.readOnlyWrite] ∧
    hostErrors idleCore true 0x51#7 0x55#8 = [.readOnlyWrite] ∧
    hostErrors idleCore true 0x50#7 0x02#8 = [.startUnwritten] ∧
    hostErrors { idleCore with blk := countingBlock } true 0x50#7 0x02#8 = [] := by decide

theorem test_witness_RotatorMovesBits : 0 < 32 ∧ 31 < 32 ∧ 1 ≤ (1#5).toNat ∧ 1 ≤ (31#5).toNat := by decide

theorem test_witness_RoundFunctionTruthTables : 0 < 32 ∧ 31 < 32 := by decide

theorem test_witness_SchedulePermutesWords :
    (63#7).toNat ≤ 63 ∧ 3 < 4 ∧ 15 < 16 ∧ sched (BitVec.ofNat 7 (16 * 3 + 15)) = 9#4 := by decide

theorem test_witness_TableEntries :
    (0#7).toNat ≤ 63 ∧ (63#7).toNat ≤ 63 ∧ kConst 63#7 = kConst 63#7 := by decide

theorem test_witness_ResetTransition :
    (busyWith 5#7 [⟨true, true, true, 0x50#7, 0x02#8⟩]).inputs = ⟨true, true, true, 0x50#7, 0x02#8⟩ :: [] ∧
    (⟨true, true, true, 0x50#7, 0x02#8⟩ : Ports).rst = true := by decide

/-- The invariant holds in the idle core and in a busy one at the last counter value. -/
theorem test_witness_StepKeepsInvariant :
    (Inv idleCore ∧ ∃ t, step idleCore = .next t) ∧ (Inv (busyCore 64#7) ∧ ∃ t, step (busyCore 64#7) = .next t) :=
  ⟨⟨⟨by decide, by decide, by decide⟩, _, rfl⟩, ⟨by decide, by decide, by decide⟩, _, rfl⟩

theorem test_witness_StepAlwaysAnswers : Inv idleCore ∧ Inv (busyCore 64#7) :=
  ⟨⟨by decide, by decide, by decide⟩, by decide, by decide, by decide⟩

/-- Each piece of state is changed by some step. -/
theorem test_witness_OnlyTheseWrite :
    nextAnd (step (busyCore 64#7)) (fun t => t.h != (busyCore 64#7).h && t.i != 64#7 && !t.busy) = true ∧
    nextAnd (step (idleWith [startSample])) (fun t => t.w != idleCore.w && t.busy) = true ∧
    nextAnd (step (idleWith [wr 0x05#7 0x00#8])) (fun t => blkByte t 5#6 != blkByte idleCore 5#6) = true := by
  decide

/-- A dropped write is interleaved. -/
theorem test_witness_BlockComputation :
    let es := wr 0x00#7 0x11#8 :: List.replicate 64 Ports.idle
    let s := idleWith (startSample :: (es ++ [Ports.idle]))
    s.busy = false ∧ s.inputs = startSample :: (es ++ Ports.idle :: []) ∧ (∀ q ∈ es, q.rst = false) ∧
    es.countP sequencerTurn = 64 ∧ sequencerTurn Ports.idle = true := by decide

theorem test_witness_SequencerRunsTheProgram :
    (busyCore 0#7).busy = true ∧ (busyCore 0#7).i.toNat ≤ 64 ∧ (busyCore 0#7).inputs = [] ∧
    (busyCore 0#7).i.toNat + 64 ≤ 64 ∧ (busyCore 64#7).i.toNat ≤ 64 := by decide

/-- Two interleavings, one with a read and a dropped write among the sequencer's turns, up to the FOLD. -/
theorem test_witness_InterleavingIrrelevant :
    let es := [statusSample, Ports.idle, wr 0x00#7 0x11#8]
    let s := busyWith 63#7 (es ++ [Ports.idle])
    let s' := busyWith 63#7 ([Ports.idle] ++ [Ports.idle])
    sameHardware s s' ∧ s.busy = true ∧ s.inputs = es ++ [Ports.idle] ∧ s'.inputs = [Ports.idle] ++ [Ports.idle] ∧
    (∀ q ∈ es, q.rst = false) ∧ (∀ q ∈ [Ports.idle], q.rst = false) ∧ sequencerTurn Ports.idle = true ∧
    es.countP sequencerTurn = [Ports.idle].countP sequencerTurn ∧ s.i.toNat + es.countP sequencerTurn ≤ 64 :=
  ⟨⟨rfl, rfl, rfl, rfl, fun _ => rfl⟩, by decide⟩

theorem test_witness_WorkingRegistersUnobservable : (idleWith [startSample, statusSample]).busy = false := by decide

theorem test_witness_LoadBlock :
    let bs := List.replicate 64 0xFF#8
    let s := idleWith (ldblk bs ++ [startSample])
    s.busy = false ∧ bs.length = 64 ∧ s.inputs = ldblk bs ++ [startSample] := by decide

theorem test_witness_OneBlock :
    let bs := List.replicate 64 0xFF#8
    let wait := statusSample :: (List.replicate 65 Ports.idle ++ [statusSample])
    let s := idleWith (hashblk bs wait)
    s.busy = false ∧ bs.length = 64 ∧ s.inputs = hashblk bs wait ∧
    (∀ q ∈ wait, q = Ports.idle ∨ q = statusSample) ∧ 65 ≤ wait.countP sequencerTurn ∧
    wait.getLast? = some statusSample := by decide

/-- The empty message, with one block. -/
theorem test_witness_OneMessage :
    let waits := [List.replicate 65 Ports.idle ++ [statusSample]]
    let s := idleWith (initSample :: ((List.zipWith hashblk (messageBlocks []) waits).flatten ++ rdstate))
    s.busy = false ∧ waits.length = (messageBlocks []).length ∧ (∀ w ∈ waits, isWait w) ∧
    s.inputs = initSample :: ((List.zipWith hashblk (messageBlocks []) waits).flatten ++ rdstate) := by
  refine ⟨by decide, by decide, ?_, rfl⟩
  intro w hw
  rw [List.mem_singleton.mp hw]
  exact ⟨by decide, by decide⟩

/-- The empty message right after reset. -/
theorem test_witness_OneMessageWithoutInit :
    let waits := [List.replicate 65 Ports.idle ++ [statusSample]]
    let ins := (List.zipWith hashblk (messageBlocks []) waits).flatten ++ rdstate
    let s := { State.reset with inputs := ins }
    s.busy = false ∧ s.h = ⟨0x67452301#32, 0xEFCDAB89#32, 0x98BADCFE#32, 0x10325476#32⟩ ∧
    waits.length = (messageBlocks []).length ∧ (∀ w ∈ waits, isWait w) ∧ s.inputs = ins := by
  refine ⟨by decide, by decide, by decide, ?_, rfl⟩
  intro w hw
  rw [List.mem_singleton.mp hw]
  exact ⟨by decide, by decide⟩

/-- A zero byte of the padding lies between the marker and the length field. -/
theorem test_witness_PaddingShape :
    ([] : List Byte).length < 1 ∧ 1 < (pad []).length - 8 ∧ 0 < 8 ∧ 7 < 8 := by decide

end Sys2Proof.Tests
end

namespace Sys2Proof.Machine

/-! ### What a step can do

The inversion of `step` that the invariants and the frame statements share, and when a step answers. -/

/-- What a step that answers leaves, one constructor per kind of change to the hardware state (R40), each with the
transition that makes it. Which value a STEP gives `W` is left open. -/
inductive StepEffect (s : State) : State → Prop where
  /-- The reset transition (R210). -/
  | reset (ha : nextAction s = .reset) : StepEffect s (resetTransition (advance s))
  /-- A turn of the idle core, or a write without effect (R55, R92, R164). -/
  | quiet : StepEffect s (advance s)
  /-- A read (R161). -/
  | read (addr : Addr) : StepEffect s (giveByte (memRead s addr) (advance s))
  /-- A write to the block buffer (R55). -/
  | store (n : BitVec 6) (v : Byte) (hb : s.busy = false)
      (ha : nextAction s = .transaction (busWord true (BitVec.ofNat 7 n.toNat) v)) :
      StepEffect s (setBlk n v (advance s))
  /-- INIT (R166). -/
  | init (hb : s.busy = false) (ha : nextAction s = .transaction 0xD001#16) : StepEffect s (loadIV (advance s))
  /-- START (R167). -/
  | start (hb : s.busy = false) (ha : nextAction s = .transaction 0xD002#16) : StepEffect s (startBlock (advance s))
  /-- A STEP of any round (R145 to R148). -/
  | round (q : Quad) (hb : s.busy = true) (hi : s.i.toNat ≤ 63) (ha : nextAction s = .operation s.i) :
      StepEffect s (setI (s.i + 1) (setW q (advance s)))
  /-- FOLD (R149). -/
  | fold (hb : s.busy = true) (ha : nextAction s = .operation 64#7) : StepEffect s (foldUpdate (advance s))

/-- A presented write is the transaction of its own bus word (R86). -/
theorem nextAction_of_write {s : State} (hr : (samplePorts s).rst = false) (hs : (samplePorts s).sel = true)
    (hw : (samplePorts s).we = true) :
    nextAction s = .transaction (busWord true (samplePorts s).addr (samplePorts s).wdata) := by
  simp [nextAction, hr, hs, hw]

/-- On its turn a busy sequencer takes the operation of its counter (R150). -/
theorem nextAction_of_turn {s : State} (ht : sequencerTurn (samplePorts s) = true) (hb : s.busy = true) :
    nextAction s = .operation s.i := by
  obtain ⟨hr, hs⟩ : (samplePorts s).rst = false ∧ (samplePorts s).sel = false := by simpa [sequencerTurn] using ht
  simp [nextAction, hr, hs, hb]

/-- What a step word that runs leaves: a STEP writes `W` and the counter, and word 64 is the FOLD. -/
theorem runWord_step_next {w : StepIdx} {s t : State} (h : runWord (.step w) s = .next t) :
    (w.toNat ≤ 63 ∧ ∃ q, t = setI (w + 1) (setW q s)) ∨ (w = 64#7 ∧ t = foldUpdate s) := by
  rcases decodeStep_cases w with ⟨hw, hd⟩ | ⟨-, hw, hd⟩ | ⟨-, hw, hd⟩ | ⟨-, hw, hd⟩ | ⟨hw, hd⟩ | ⟨-, hd⟩
  · exact .inl ⟨by omega, _, ((execStepF_next w s t).mp ((runWord_step hd s).symm.trans h)).2⟩
  · exact .inl ⟨by omega, _, ((execStepG_next w s t).mp ((runWord_step hd s).symm.trans h)).2⟩
  · exact .inl ⟨by omega, _, ((execStepH_next w s t).mp ((runWord_step hd s).symm.trans h)).2⟩
  · exact .inl ⟨by omega, _, ((execStepI_next w s t).mp ((runWord_step hd s).symm.trans h)).2⟩
  · exact .inr ⟨hw, ((execFold_next s t).mp ((runWord_step hd s).symm.trans h)).2⟩
  · rw [runWord_reserved hd] at h
    nomatch h

/-- A presented write has one of the effects of a write (R55, R163). -/
theorem stepEffect_memWrite {s : State} (hr : (samplePorts s).rst = false) (hs : (samplePorts s).sel = true)
    (hw : (samplePorts s).we = true) :
    StepEffect s (memWrite (samplePorts s).addr (samplePorts s).wdata (advance s)) := by
  have ha := nextAction_of_write hr hs hw
  rcases memWrite_cases (samplePorts s).addr (samplePorts s).wdata (advance s) with
    e | ⟨hb, hle, e⟩ | ⟨hb, haddr, hv, e⟩ | ⟨hb, haddr, hv, e⟩ <;> rw [e]
  · exact .quiet
  · refine .store _ _ hb ?_
    rw [blkIndex_toNat _ hle, BitVec.ofNat_toNat, BitVec.setWidth_eq, ha]
  · rw [haddr, hv] at ha
    exact .init hb ha
  · rw [haddr, hv] at ha
    exact .start hb ha

/-- Every step that answers has one of the effects listed. -/
theorem stepEffect_of_step {s t : State} (h : step s = .next t) : StepEffect s t := by
  rcases step_cases s with ⟨hr, e⟩ | ⟨-, -, -, e⟩ | ⟨hr, hs, hw, e⟩ | ⟨ht, hb, e⟩ | ⟨-, -, e⟩ <;> rw [e] at h
  · obtain rfl := (next_next _ _).mp h
    exact .reset (by simp [nextAction, hr])
  · obtain rfl := (next_next _ _).mp h
    exact .read _
  · obtain rfl := (next_next _ _).mp h
    exact stepEffect_memWrite hr hs hw
  · have ha := nextAction_of_turn ht hb
    rcases runWord_step_next h with ⟨hi, q, rfl⟩ | ⟨hi, rfl⟩
    · exact .round q hb hi ha
    · exact .fold hb (hi ▸ ha)
  · obtain rfl := (next_next _ _).mp h
    exact .quiet

/-- A busy core with its counter in 0..64 always has an operation to perform (R82, R150). -/
theorem runWord_counter_answers {s : State} (hb : s.busy = true) (hi : s.i.toNat ≤ 64) :
    ∃ t, runWord (.step s.i) s = .next t := by
  rcases decodeStep_cases s.i with ⟨hw, hd⟩ | ⟨h, hw, hd⟩ | ⟨h, hw, hd⟩ | ⟨h, hw, hd⟩ | ⟨hw, hd⟩ | ⟨h, hd⟩
  · exact ⟨_, (runWord_step hd s).trans ((execStepF_next _ _ _).mpr ⟨⟨hb, rfl, hw⟩, rfl⟩)⟩
  · exact ⟨_, (runWord_step hd s).trans ((execStepG_next _ _ _).mpr ⟨⟨hb, rfl, h, hw⟩, rfl⟩)⟩
  · exact ⟨_, (runWord_step hd s).trans ((execStepH_next _ _ _).mpr ⟨⟨hb, rfl, h, hw⟩, rfl⟩)⟩
  · exact ⟨_, (runWord_step hd s).trans ((execStepI_next _ _ _).mpr ⟨⟨hb, rfl, h, hw⟩, rfl⟩)⟩
  · exact ⟨_, (runWord_step hd s).trans ((execFold_next _ _).mpr ⟨⟨hb, hw⟩, rfl⟩)⟩
  · omega

/-- A step answers unless a busy core has its counter beyond 64. -/
theorem step_answers {s : State} (h : s.busy = true → s.i.toNat ≤ 64) : ∃ t, step s = .next t := by
  rcases step_cases s with ⟨-, e⟩ | ⟨-, -, -, e⟩ | ⟨-, -, -, e⟩ | ⟨-, hb, e⟩ | ⟨-, -, e⟩
  · exact ⟨_, e⟩
  · exact ⟨_, e⟩
  · exact ⟨_, e⟩
  · exact e ▸ runWord_counter_answers (s := advance s) hb (h hb)
  · exact ⟨_, e⟩

/-! ### The invariant (R39, R40) -/

theorem step_keeps_wf {s t : State} (h : step s = .next t) (hm : Memory.wf s.blk = true) :
    Memory.wf t.blk = true := by
  cases stepEffect_of_step h with
  | reset => exact Memory.wf_nil
  | store n v => exact Memory.wf_write _ _ _ hm n.isLt
  | _ => exact hm

theorem step_keeps_idle_counter {s t : State} (h : step s = .next t) (hi : s.busy = false → s.i = 0#7) :
    t.busy = false → t.i = 0#7 := by
  cases stepEffect_of_step h with
  | reset => exact fun _ => rfl
  | start => exact fun _ => rfl
  | fold => exact fun _ => rfl
  | round q hb => exact fun hidle => absurd (hb.symm.trans hidle) nofun
  | _ => exact hi

/-- A busy core's counter stays in 0..64: START sets it to 0, and only the steps 0..63 count up. -/
theorem step_keeps_busy_counter {s t : State} (h : step s = .next t) (hi : s.busy = true → s.i.toNat ≤ 64) :
    t.busy = true → t.i.toNat ≤ 64 := by
  cases stepEffect_of_step h with
  | reset => exact nofun
  | start => exact fun _ => Nat.zero_le _
  | fold => exact nofun
  | round q hb hle =>
    intro _
    rw [setI_i, BitVec.toNat_add]
    exact (Nat.mod_le _ _).trans (Nat.succ_le_succ hle)
  | _ => exact hi

theorem step_keeps_inv {s t : State} (hs : Inv s) (h : step s = .next t) : Inv t := by
  obtain ⟨hm, hidle, hbusy⟩ := hs
  exact ⟨step_keeps_wf h hm, step_keeps_idle_counter h hidle, step_keeps_busy_counter h hbusy⟩

/-- Settles O48: each of the three parts of the invariant is kept by every effect of a step. -/
theorem stepKeepsInvariant : Obligations.StepKeepsInvariant :=
  fun _ _ => step_keeps_inv

/-- The reset state meets the invariant, whatever stands on the ports. -/
theorem inv_reset (ins : List Ports) : Inv { State.reset with inputs := ins } :=
  ⟨Memory.wf_nil, fun _ => rfl, nofun⟩

/-- Settles O47, with no sample on the ports. -/
theorem resetMeetsInvariant : Obligations.ResetMeetsInvariant :=
  inv_reset []

theorem reachable_inv {s : State} (h : Reachable s) : Inv s := by
  induction h with
  | reset ins => exact inv_reset ins
  | step s t _ hst ih => exact step_keeps_inv ih hst

/-- Under the invariant the counter is at most 64, busy or idle (R25). -/
theorem inv_counter_le {s : State} (h : Inv s) : s.i.toNat ≤ 64 := by
  obtain ⟨-, hidle, hbusy⟩ := h
  cases hb : s.busy with
  | true => exact hbusy hb
  | false => exact hidle hb ▸ Nat.zero_le _

/-- The counter values beyond 64 select no operation (R85). -/
theorem decodeStep_reserved {w : StepIdx} (h : 65 ≤ w.toNat) : decodeStep w = .error .reservedStepWord := by
  rcases decodeStep_cases w with ⟨hw, -⟩ | ⟨-, hw, -⟩ | ⟨-, hw, -⟩ | ⟨-, hw, -⟩ | ⟨rfl, -⟩ | ⟨-, hd⟩
  · omega
  · omega
  · omega
  · omega
  · exact absurd h (by decide)
  · exact hd

/-- Settles O20: the reserved values do not decode, and every reachable state meets the invariant. -/
theorem reservedCounterUnreachable : Obligations.ReservedCounterUnreachable := by
  refine ⟨fun s hb hi ht => ?_, fun s hs => inv_counter_le (reachable_inv hs)⟩
  rw [step, nextAction_of_turn ht hb]
  exact runWord_reserved (decodeStep_reserved hi) _

/-- Settles O45: every value is a field of `State.reset`, and its empty block buffer reads as the free bytes. -/
theorem resetValues : Obligations.ResetValues :=
  ⟨rfl, rfl, rfl, fun _ => rfl⟩

/-! ### Which transitions write which piece of state (R40) -/

section
variable {s t : State}

theorem h_writers (h : step s = .next t) (hne : t.h ≠ s.h) :
    nextAction s = .reset ∨ (s.busy = false ∧ nextAction s = .transaction 0xD001#16) ∨
      nextAction s = .operation 64#7 := by
  cases stepEffect_of_step h with
  | reset ha => exact .inl ha
  | init hb ha => exact .inr (.inl ⟨hb, ha⟩)
  | fold _ ha => exact .inr (.inr ha)
  | _ => exact absurd rfl hne

theorem w_writers (h : step s = .next t) (hne : t.w ≠ s.w) :
    nextAction s = .reset ∨ (s.busy = false ∧ nextAction s = .transaction 0xD002#16) ∨
      ∃ k, k.toNat ≤ 63 ∧ nextAction s = .operation k := by
  cases stepEffect_of_step h with
  | reset ha => exact .inl ha
  | start hb ha => exact .inr (.inl ⟨hb, ha⟩)
  | round q _ hi ha => exact .inr (.inr ⟨_, hi, ha⟩)
  | _ => exact absurd rfl hne

theorem counter_writers (h : step s = .next t) (hne : t.i ≠ s.i) :
    nextAction s = .reset ∨ (s.busy = false ∧ nextAction s = .transaction 0xD002#16) ∨
      ∃ k, k.toNat ≤ 64 ∧ nextAction s = .operation k := by
  cases stepEffect_of_step h with
  | reset ha => exact .inl ha
  | start hb ha => exact .inr (.inl ⟨hb, ha⟩)
  | round q _ hi ha => exact .inr (.inr ⟨_, Nat.le_succ_of_le hi, ha⟩)
  | fold _ ha => exact .inr (.inr ⟨_, Nat.le_refl _, ha⟩)
  | _ => exact absurd rfl hne

theorem busy_writers (h : step s = .next t) (hne : t.busy ≠ s.busy) :
    nextAction s = .reset ∨ (s.busy = false ∧ nextAction s = .transaction 0xD002#16) ∨
      nextAction s = .operation 64#7 := by
  cases stepEffect_of_step h with
  | reset ha => exact .inl ha
  | start hb ha => exact .inr (.inl ⟨hb, ha⟩)
  | fold _ ha => exact .inr (.inr ha)
  | _ => exact absurd rfl hne

/-- Among the writes, only the one to the byte's own address changes it. -/
theorem blkByte_writers (h : step s = .next t) (n : BitVec 6) (hne : blkByte t n ≠ blkByte s n) :
    nextAction s = .reset ∨
      (s.busy = false ∧ ∃ v : Byte, nextAction s = .transaction (1#1 ++ BitVec.ofNat 7 n.toNat ++ v)) := by
  cases stepEffect_of_step h with
  | reset ha => exact .inl ha
  | store m v hb ha =>
    by_cases hnm : n = m
    · exact .inr ⟨hb, v, hnm ▸ ha⟩
    · rw [blkByte_setBlk, if_neg hnm] at hne
      exact absurd rfl hne
  | _ => exact absurd rfl hne

end

/-- Settles O50, one field of the hardware state after the other. -/
theorem onlyTheseWrite : Obligations.OnlyTheseWrite :=
  fun _ _ h => ⟨h_writers h, w_writers h, counter_writers h, busy_writers h, blkByte_writers h⟩

/-! ### The working registers of an idle core (R24) -/

/-- A run answers from every state in which a busy core's counter is in 0..64. -/
theorem run_answers (n : Nat) {s : State} (h : s.busy = true → s.i.toNat ≤ 64) : ∃ t, run n s = .next t := by
  induction n generalizing s with
  | zero => exact ⟨s, rfl⟩
  | succ n ih =>
    obtain ⟨t, ht⟩ := step_answers h
    rw [run_succ ht]
    exact ih (step_keeps_busy_counter ht h)

/-- An idle write does not see `W`: START overwrites it, and every other write leaves it and the core idle. -/
theorem memWrite_setW (addr : Addr) (v : Byte) (q : Quad) {s : State} (hb : s.busy = false) :
    memWrite addr v (setW q s) = memWrite addr v s ∨
    ((memWrite addr v s).busy = false ∧ memWrite addr v (setW q s) = setW q (memWrite addr v s)) := by
  simp only [memWrite, command, setW_busy, hb, Bool.false_eq_true, if_false]
  split_ifs
  · exact .inr ⟨hb, rfl⟩
  · exact .inr ⟨hb, rfl⟩
  · exact .inr ⟨hb, rfl⟩
  · exact .inl rfl
  · exact .inr ⟨hb, rfl⟩
  · exact .inr ⟨hb, rfl⟩

/-- A read word gives the byte at its address (R161). -/
theorem exec_decodeBus_of_read {w : BitVec 16} (hw : busWrite w = false) (s : State) :
    exec (decodeBus w) s = .next (giveByte (memRead s (busAddr w)) s) := by
  rcases exec_decodeBus w s with ⟨-, e⟩ | ⟨hw', -⟩
  · exact e
  · exact absurd (hw.symm.trans hw') nofun

/-- A write word does what MemWrite does (R162). -/
theorem exec_decodeBus_of_write {w : BitVec 16} (hw : busWrite w = true) (s : State) :
    exec (decodeBus w) s = .next (memWrite (busAddr w) (busData w) s) := by
  rcases exec_decodeBus w s with ⟨hw', -⟩ | ⟨-, e⟩
  · exact absurd (hw.symm.trans hw') nofun
  · exact e

/-- An idle core's bus transaction sees `W` no more than its write does; what a read returns never depends on `W`
(R54). -/
theorem exec_decodeBus_setW (w : BitVec 16) (q : Quad) {s t : State} (hb : s.busy = false)
    (h : exec (decodeBus w) s = .next t) :
    exec (decodeBus w) (setW q s) = .next t ∨
    (t.busy = false ∧ exec (decodeBus w) (setW q s) = .next (setW q t)) := by
  cases hw : busWrite w with
  | false =>
    obtain rfl := (next_next _ _).mp ((exec_decodeBus_of_read hw s).symm.trans h)
    exact .inr ⟨hb, exec_decodeBus_of_read hw (setW q s)⟩
  | true =>
    obtain rfl := (next_next _ _).mp ((exec_decodeBus_of_write hw s).symm.trans h)
    rw [exec_decodeBus_of_write hw (setW q s), Host.Outcome.next.injEq, Host.Outcome.next.injEq]
    exact memWrite_setW _ _ q hb

/-- An idle core's step does not see `W`: it overwrites `W`, or it leaves `W` as it is and the core idle. -/
theorem step_setW {s t : State} (q : Quad) (hb : s.busy = false) (h : step s = .next t) :
    step (setW q s) = .next t ∨ (t.busy = false ∧ step (setW q s) = .next (setW q t)) := by
  have hq : step (setW q s) = takeAction (nextAction s) (setW q (advance s)) := rfl
  rw [hq]
  rw [step] at h
  rcases nextAction_cases s with ⟨-, e⟩ | ⟨-, -, e⟩ | ⟨-, hbusy, -⟩ | ⟨-, -, e⟩
  · rw [e] at h ⊢
    exact .inl h
  · rw [e] at h ⊢
    exact exec_decodeBus_setW _ q hb h
  · exact absurd (hb.symm.trans hbusy) nofun
  · rw [e] at h ⊢
    obtain rfl := (next_next _ _).mp h
    exact .inr ⟨hb, rfl⟩

/-- Two runs that differ in an idle core's `W` only: they agree in everything else, step by step, until a reset or a
START makes them the same run. -/
theorem run_setW (n : Nat) (q : Quad) {s : State} (hb : s.busy = false) :
    ∃ t, run n s = .next t ∧ (run n (setW q s) = .next t ∨ run n (setW q s) = .next (setW q t)) := by
  induction n generalizing s with
  | zero => exact ⟨s, rfl, .inr rfl⟩
  | succ n ih =>
    have hs : s.busy = true → s.i.toNat ≤ 64 := fun h => absurd (hb.symm.trans h) nofun
    obtain ⟨t, ht⟩ := step_answers hs
    rw [run_succ ht]
    rcases step_setW q hb ht with hq | ⟨htb, hq⟩ <;> rw [run_succ hq]
    · obtain ⟨u, hu⟩ := run_answers n (step_keeps_busy_counter ht hs)
      exact ⟨u, hu, .inl hu⟩
    · exact ih htb

/-- Settles O54: wherever the runs differ, they differ in `W` alone, which is no output. -/
theorem workingRegistersUnobservable : Obligations.WorkingRegistersUnobservable := by
  intro n s q hb
  obtain ⟨t, ht, hq | hq⟩ := run_setW n q hb
  · exact ⟨t, t, ht, hq, rfl, rfl, rfl, rfl, fun _ => rfl⟩
  · exact ⟨t, setW q t, ht, hq, rfl, rfl, rfl, rfl, fun _ => rfl⟩

/-! ### CTRL, STATUS and the STATE window (R30 to R33) -/

/-- Outside BLK and CTRL a write does nothing (R55, R56). -/
theorem memWrite_readOnly {addr : Addr} (h : 0x40 ≤ addr.toNat) (hc : addr ≠ ctrlAddr) (v : Byte) (s : State) :
    memWrite addr v s = s := by
  rcases memWrite_cases addr v s with e | ⟨-, hle, -⟩ | ⟨-, ha, -, -⟩ | ⟨-, ha, -, -⟩
  · exact e
  · omega
  · exact absurd ha hc
  · exact absurd ha hc

/-- While idle a write to CTRL is its command (R163). -/
theorem memWrite_ctrl (v : Byte) {s : State} (hb : s.busy = false) : memWrite ctrlAddr v s = command v s := by
  simp [memWrite, ctrlAddr, hb]

/-- Settles O25: a command is its write to CTRL, and a reserved value is none of the three commands. -/
theorem ctrlWritesAreCommands : Obligations.CtrlWritesAreCommands := by
  intro v s
  obtain ⟨hnop, hinit, hstart⟩ := execWr_ctrl s
  refine ⟨rfl, fun hb => congrArg _ (memWrite_busy _ v s hb), fun hb => ⟨?_, ?_, ?_, fun hv => ?_⟩⟩
  · rintro rfl
    exact hnop
  · rintro rfl
    exact hinit
  · rintro rfl
    exact hstart
  · refine congrArg _ ((memWrite_ctrl v hb).trans ?_)
    rcases command_cases v s with ⟨rfl, -⟩ | ⟨rfl, -⟩ | ⟨-, -, e⟩
    · exact absurd hv (by decide)
    · exact absurd hv (by decide)
    · exact e

/-- Settles O32: STATUS lies outside BLK and CTRL, so a write there is dropped. -/
theorem statusRegister : Obligations.StatusRegister :=
  ⟨fun s v => ⟨rfl, congrArg _ (memWrite_readOnly (by decide) (by decide) v s)⟩, rfl⟩

/-- The address of byte `n` of register `j` in the STATE window, and its fields (R33, R88). -/
theorem stateWindow_fields {j n : Nat} (hj : j < 4) (hn : n < 4) :
    (BitVec.ofNat 7 (0x40 + 4 * j + n)).toNat = 0x40 + 4 * j + n ∧
    (BitVec.ofNat 7 (0x40 + 4 * j + n)).extractLsb' 2 2 = BitVec.ofNat 2 j ∧
    (BitVec.ofNat 7 (0x40 + 4 * j + n)).extractLsb' 0 2 = BitVec.ofNat 2 n := by
  have haddr : (BitVec.ofNat 7 (0x40 + 4 * j + n)).toNat = 0x40 + 4 * j + n := by
    rw [BitVec.toNat_ofNat]
    omega
  refine ⟨haddr, BitVec.eq_of_toNat_eq ?_, BitVec.eq_of_toNat_eq ?_⟩ <;>
    rw [BitVec.extractLsb'_toNat, haddr, BitVec.toNat_ofNat, Nat.shiftRight_eq_div_pow] <;> omega

/-- Register `j` of a file by its number (R21). -/
theorem quadReg_ofNat (q : Quad) {j : Nat} (hj : j < 4) :
    quadReg q (BitVec.ofNat 2 j) = [q.a, q.b, q.c, q.d].getD j 0 := by
  interval_cases j <;> rfl

/-- A read of the STATE window is a byte of `H` (R33). -/
theorem memRead_stateWindow (s : State) {j n : Nat} (hj : j < 4) (hn : n < 4) :
    memRead s (BitVec.ofNat 7 (0x40 + 4 * j + n)) =
      ([s.h.a, s.h.b, s.h.c, s.h.d].getD j 0).extractLsb' (8 * n) 8 := by
  obtain ⟨haddr, hreg, hbyte⟩ := stateWindow_fields hj hn
  rw [memRead, if_neg (by omega), if_pos (by omega), hreg, hbyte, quadByte, quadReg_ofNat _ hj, BitVec.toNat_ofNat,
    Nat.mod_eq_of_lt (by omega)]

/-- Settles O33: the fields of the address select the register and its byte, and the window is read-only. -/
theorem stateWindow : Obligations.StateWindow := by
  refine ⟨fun s j n v hj hn => ⟨?_, ?_⟩, by decide⟩
  · exact congrArg (fun b => Host.Outcome.next (giveByte b s)) (memRead_stateWindow s hj hn)
  · obtain ⟨haddr, -, -⟩ := stateWindow_fields hj hn
    have hctrl : BitVec.ofNat 7 (0x40 + 4 * j + n) ≠ ctrlAddr := fun h => by
      have := haddr.symm.trans (congrArg BitVec.toNat h)
      simp [ctrlAddr] at this
      omega
    exact congrArg _ (memWrite_readOnly (by omega) hctrl v s)

end Sys2Proof.Machine

namespace Sys2Proof.Machine

/-! ### The address map of the host (R54 to R56) -/

/-- A read below 0x40 is a byte of BLK (R54). -/
theorem memRead_blk (s : State) {addr : Addr} (h : addr.toNat ≤ 0x3F) :
    memRead s addr = blkByte s (addr.extractLsb' 0 6) := if_pos h

/-- CTRL and the unmapped addresses read as 0 (R54, R56). -/
theorem memRead_zero (s : State) {addr : Addr} (h : 0x50 ≤ addr.toNat) (hs : addr ≠ statusAddr) :
    memRead s addr = 0x00#8 := by
  rw [memRead, if_neg (by omega), if_neg (by omega), if_neg hs]

/-- STATUS reads as 1 while busy and as 0 while idle (R32). -/
theorem statusByte_eq (s : State) : statusByte s = if s.busy then 0x01#8 else 0x00#8 := by
  cases h : s.busy <;> simp [statusByte, busyBit, h]

/-- A byte cut out of a word is a quotient (R33). -/
theorem extractByte_eq_div (x : Word) (k : Nat) : x.extractLsb' k 8 = BitVec.ofNat 8 (x.toNat / 2 ^ k) := by
  rw [BitVec.extractLsb', Nat.shiftRight_eq_div_pow]

/-- An address of the STATE window is the one of byte `n` of register `j` (R33). -/
theorem stateWindow_split {a : Addr} (hlo : 0x40 ≤ a.toNat) :
    BitVec.ofNat 7 (0x40 + 4 * ((a.toNat - 0x40) / 4) + (a.toNat - 0x40) % 4) = a := by
  rw [Nat.add_assoc, Nat.div_add_mod, Nat.add_sub_cancel' hlo, BitVec.ofNat_toNat, BitVec.setWidth_eq]

/-- Settles O21: RD gives MemRead's byte, range of the map after range. -/
theorem rdResult : Obligations.RdResult := by
  refine fun a s => ⟨memRead s a, rfl, memRead_blk s, fun hlo hhi => ?window, fun ha => ?status, fun ha => ?zero⟩
  case window =>
    have h := memRead_stateWindow s (j := (a.toNat - 0x40) / 4) (n := (a.toNat - 0x40) % 4) (by omega) (by omega)
    rwa [stateWindow_split hlo, extractByte_eq_div] at h
  case status =>
    obtain rfl : a = statusAddr := BitVec.eq_of_toNat_eq ha
    exact statusByte_eq s
  case zero =>
    refine memRead_zero s (by omega) ?_
    rintro rfl
    exact absurd ha (by decide)

/-- Settles O31: the unmapped addresses read as 0, and only BLK and CTRL are written. -/
theorem unmappedAndReadOnly : Obligations.UnmappedAndReadOnly := by
  refine fun a v s => ⟨fun ha => ?_, fun ha => ?_⟩
  · have hs : a ≠ statusAddr := by
      rintro rfl
      exact absurd ha (by decide)
    exact congrArg (fun b => Host.Outcome.next (giveByte b s)) (memRead_zero s (by omega) hs)
  · have hc : a ≠ ctrlAddr := by
      rintro rfl
      exact absurd ha (by decide)
    exact congrArg _ (memWrite_readOnly (by omega) hc v s)

/-- While idle a write below 0x40 stores to BLK (R55). -/
theorem memWrite_blk {addr : Addr} (h : addr.toNat ≤ 0x3F) (v : Byte) {s : State} (hb : s.busy = false) :
    memWrite addr v s = setBlk (addr.extractLsb' 0 6) v s := by
  rw [memWrite, hb, if_neg nofun, if_pos h]

/-- A write to CTRL is the command of its value, and a reserved value has no effect (R92, R163). -/
theorem exec_wr_ctrl (v : Byte) (s : State) :
    exec (.wr ctrlAddr v) s =
      if v = 0x00#8 then exec .nop s
      else if v = 0x01#8 then exec .init s
      else if v = 0x02#8 then exec .start s
      else .next s := by
  obtain ⟨hnop, hinit, hstart⟩ := execWr_ctrl s
  split_ifs with h0 h1 h2
  · exact h0 ▸ hnop
  · exact h1 ▸ hinit
  · exact h2 ▸ hstart
  · cases hb : s.busy with
    | true => exact congrArg _ (memWrite_busy _ v s hb)
    | false =>
      refine congrArg _ ((memWrite_ctrl v hb).trans ?_)
      rw [command, if_neg h0, if_neg h1, if_neg h2]

/-- Settles O23: a write is dropped, a store to BLK, a command, or outside both. -/
theorem wrResult : Obligations.WrResult := by
  refine fun a v s => ⟨fun hb => congrArg _ (memWrite_busy a v s hb), fun hb ha => ?blk, fun _ ha => ?ctrl,
    fun hlo ha => ?readOnly⟩
  case blk =>
    refine ⟨_, congrArg _ (memWrite_blk ha v hb), fun n => ?_⟩
    simp only [← blkIndex_toNat a ha, BitVec.toNat_inj]
    exact blkByte_setBlk _ n v s
  case ctrl =>
    obtain rfl : a = ctrlAddr := BitVec.eq_of_toNat_eq ha
    exact exec_wr_ctrl v s
  case readOnly => exact congrArg _ (memWrite_readOnly hlo (fun h => ha (congrArg BitVec.toNat h)) v s)

/-- Storing the same byte twice is storing it once. -/
theorem setBlk_setBlk (n : BitVec 6) (v : Byte) (s : State) : setBlk n v (setBlk n v s) = setBlk n v s := by
  simp only [setBlk, Memory.write_write]

/-- A repeated write below 0x40 changes nothing more, whether busy drops it or not (R60). -/
theorem memWrite_blk_idempotent {addr : Addr} (h : addr.toNat ≤ 0x3F) (v : Byte) (s : State) :
    memWrite addr v (memWrite addr v s) = memWrite addr v s := by
  cases hb : s.busy with
  | true => rw [memWrite_busy addr v s hb, memWrite_busy addr v s hb]
  | false => rw [memWrite_blk h v hb, memWrite_blk h v (s := setBlk _ v s) hb, setBlk_setBlk]

/-- A repeated INIT changes nothing more (R60, R166). -/
theorem execInit_idempotent {s t : State} (h : execInit s = .next t) : execInit t = .next t := by
  obtain rfl := (execInit_next s t).mp h
  cases hb : s.busy <;> simp [execInit, loadIV, setH, hb]

/-- Settles O36, one kind of write after the other. -/
theorem repeatedWritesIdempotent : Obligations.RepeatedWritesIdempotent := by
  rintro ins s t (⟨a, v, rfl, ha⟩ | rfl | rfl) h
  · obtain rfl := (execWr_next a v s t).mp h
    exact congrArg Host.Outcome.next (memWrite_blk_idempotent ha v s)
  · rfl
  · exact execInit_idempotent h

/-! ### The bits of a block word (R51, R52) -/

/-- Bit `b` of a block word is bit `b mod 8` of the byte `b div 8` of the word (R51). -/
theorem getLsbD_unpack (bytes : BitVec 6 → Byte) (j : BitVec 4) {b : Nat} (hb : b < 32) :
    (unpack bytes j).getLsbD b = (bytes (j ++ BitVec.ofNat 2 (b / 8))).getLsbD (b % 8) := by
  rw [unpack, BitVec.getLsbD_append, BitVec.getLsbD_append, BitVec.getLsbD_append]
  obtain h | h | h | h : b / 8 = 0 ∨ b / 8 = 1 ∨ b / 8 = 2 ∨ b / 8 = 3 := by omega
  · rw [if_pos (by omega), h, show b % 8 = b by omega]
  · rw [if_neg (by omega), if_pos (by omega), h, show b % 8 = b - 8 by omega]
  · rw [if_neg (by omega), if_neg (by omega), if_pos (by omega), h, show b % 8 = b - 8 - 8 by omega]
  · rw [if_neg (by omega), if_neg (by omega), if_neg (by omega), h, show b % 8 = b - 8 - 8 - 8 by omega]

/-- The address of byte `k` of block word `j` is `4 j + k` (R51). -/
theorem blockByteIndex_toNat (j : BitVec 4) {k : Nat} (hk : k < 4) :
    (j ++ BitVec.ofNat 2 k).toNat = 4 * j.toNat + k := by
  rw [BitVec.toNat_append, BitVec.toNat_ofNat, Nat.mod_eq_of_lt hk, ← Nat.shiftLeft_add_eq_or_of_lt hk,
    Nat.shiftLeft_eq]
  omega

/-- Settles O34: the bit lies in the byte written exactly when the byte's address is `4 j + b div 8`. -/
theorem byteWriteChangesItsBits : Obligations.ByteWriteChangesItsBits := by
  intro a v s t hb ha h j b hbit
  obtain rfl := (execWr_next a v s t).mp h
  have hbyte : j ++ BitVec.ofNat 2 (b / 8) = a.extractLsb' 0 6 ↔ j.toNat = a.toNat / 4 ∧ b / 8 = a.toNat % 4 := by
    rw [← BitVec.toNat_inj, blockByteIndex_toNat j (by omega), blkIndex_toNat a ha]
    omega
  rw [msgWord, msgWord, getLsbD_unpack _ j hbit, getLsbD_unpack _ j hbit, memWrite_blk ha v hb, blkByte_setBlk]
  simp only [hbyte]
  split <;> rfl

/-! ### The step runs the word it decodes (R59, R150) -/

theorem runWord_of_decode {w : InstrWord} {i : Instr} (h : decode w = .ok i) (s : State) :
    runWord w s = exec i s := by
  rw [runWord, h]

/-- Settles O7: the step takes the transaction or the operation after using up the sample. -/
theorem stepRunsDecodedWord : Obligations.StepRunsDecodedWord := by
  refine fun s i => ⟨fun w ha hd => ?_, fun w ha hd => ?_⟩
  · rw [step, ha]
    exact runWord_of_decode hd _
  · rw [step, ha]
    exact runWord_of_decode hd _

/-! ### A turn of the sequencer, whatever the round (R143, R144) -/

/-- Field `i[5:4]` of a step index (R12). -/
theorem roundIdx_toNat (i : StepIdx) : (roundIdx i).toNat = i.toNat / 16 % 4 := by
  rw [roundIdx, BitVec.extractLsb'_toNat, Nat.shiftRight_eq_div_pow]

/-- The steps 16 r to 16 r + 15 have the round index `r` (R12). -/
theorem roundIdx_eq {i : StepIdx} {r : BitVec 2} (h : i.toNat / 16 = r.toNat) : roundIdx i = r := by
  refine BitVec.eq_of_toNat_eq ?_
  rw [roundIdx_toNat, h, Nat.mod_eq_of_lt r.isLt]

/-- The update of a STEP is the one datapath of R143, when its round's function and schedule are the multiplexers'. -/
theorem stepUpdate_eq_stepQuad {i : StepIdx} {r : BitVec 2} {f : Word} {k : BitVec 4} {s : State}
    (hr : roundIdx i = r) (hf : roundMux (roundIdx i) s.w.b s.w.c s.w.d = f) (hk : sched i = k) :
    stepUpdate i r f k s = setI (i + 1) (setW (stepQuad i s.w (blkByte s)) s) := by
  subst hr hf hk
  rfl

/-- Below the FOLD the counter counts up by one without wrapping. -/
theorem counter_succ_toNat {i : StepIdx} (hi : i.toNat ≤ 63) : (i + 1).toNat = i.toNat + 1 := by
  rw [BitVec.toNat_add]
  exact Nat.mod_eq_of_lt (by change i.toNat + 1 < 128; omega)

/-- The operation of a counter in 0..63 rotates the working registers through STEPVAL and counts up, whichever of the
four STEPs it is (R143 to R148). -/
theorem runWord_counter_round {s : State} (hb : s.busy = true) (hi : s.i.toNat ≤ 63) :
    runWord (.step s.i) s = .next (setI (s.i + 1) (setW (stepQuad s.i s.w (blkByte s)) s)) := by
  rcases decodeStep_cases s.i with ⟨hw, hd⟩ | ⟨h, hw, hd⟩ | ⟨h, hw, hd⟩ | ⟨h, hw, hd⟩ | ⟨hw, -⟩ | ⟨h, -⟩
  · have hr : roundIdx s.i = 0#2 := roundIdx_eq (show s.i.toNat / 16 = 0 by omega)
    exact (runWord_step hd s).trans ((execStepF_next _ _ _).mpr ⟨⟨hb, rfl, hw⟩,
      (stepUpdate_eq_stepQuad hr (by simp [roundMux, hr]) (by simp [sched, hr])).symm⟩)
  · have hr : roundIdx s.i = 1#2 := roundIdx_eq (show s.i.toNat / 16 = 1 by omega)
    exact (runWord_step hd s).trans ((execStepG_next _ _ _).mpr ⟨⟨hb, rfl, h, hw⟩,
      (stepUpdate_eq_stepQuad hr (by simp [roundMux, hr]) (by simp [sched, hr])).symm⟩)
  · have hr : roundIdx s.i = 2#2 := roundIdx_eq (show s.i.toNat / 16 = 2 by omega)
    exact (runWord_step hd s).trans ((execStepH_next _ _ _).mpr ⟨⟨hb, rfl, h, hw⟩,
      (stepUpdate_eq_stepQuad hr (by simp [roundMux, hr]) (by simp [sched, hr])).symm⟩)
  · have hr : roundIdx s.i = 3#2 := roundIdx_eq (show s.i.toNat / 16 = 3 by omega)
    exact (runWord_step hd s).trans ((execStepI_next _ _ _).mpr ⟨⟨hb, rfl, h, hw⟩,
      (stepUpdate_eq_stepQuad hr (by simp [roundMux, hr]) (by simp [sched, hr])).symm⟩)
  · rw [hw] at hi
    exact absurd hi (by decide)
  · omega

/-- The operation of the counter 64 is the FOLD (R149, R150). -/
theorem runWord_counter_fold {s : State} (hb : s.busy = true) (hi : s.i = 64#7) :
    runWord (.step s.i) s = .next (foldUpdate s) := by
  rw [hi]
  exact (execFold_next _ _).mpr ⟨⟨hb, hi⟩, rfl⟩

/-- On its turn a busy core's step is the operation of its counter, the sample used up (R150). -/
theorem step_turn {s : State} (hb : s.busy = true) (ht : sequencerTurn (samplePorts s) = true) :
    step s = runWord (.step s.i) (advance s) := by
  rw [step, nextAction_of_turn ht hb]
  rfl

/-- A busy core's turn at a counter in 0..63. -/
theorem step_round {s : State} (hb : s.busy = true) (ht : sequencerTurn (samplePorts s) = true)
    (hi : s.i.toNat ≤ 63) :
    step s = .next (setI (s.i + 1) (setW (stepQuad s.i s.w (blkByte s)) (advance s))) :=
  (step_turn hb ht).trans (runWord_counter_round (s := advance s) hb hi)

/-- A busy core's turn at the counter 64. -/
theorem step_fold {s : State} (hb : s.busy = true) (ht : sequencerTurn (samplePorts s) = true) (hi : s.i = 64#7) :
    step s = .next (foldUpdate (advance s)) :=
  (step_turn hb ht).trans (runWord_counter_fold (s := advance s) hb hi)

/-! ### Interleavings of the two agents (R62)

Every run of a busy core without reset is compared with the quiet run, in which no sample is left and the sequencer has
every step (log entry 2). -/

theorem sameHardware_symm {s t : State} (h : sameHardware s t) : sameHardware t s := by
  obtain ⟨hh, hw, hi, hb, hblk⟩ := h
  exact ⟨hh.symm, hw.symm, hi.symm, hb.symm, fun n => (hblk n).symm⟩

theorem sameHardware_trans {s t u : State} (hst : sameHardware s t) (htu : sameHardware t u) : sameHardware s u := by
  obtain ⟨hh, hw, hi, hb, hblk⟩ := hst
  obtain ⟨hh', hw', hi', hb', hblk'⟩ := htu
  exact ⟨hh.trans hh', hw.trans hw', hi.trans hi', hb.trans hb', fun n => (hblk n).trans (hblk' n)⟩

/-- While busy a host transaction uses up its sample and leaves the hardware state as it was (R55, R161, R164). -/
theorem step_busy_host {s : State} (hb : s.busy = true) (hr : (samplePorts s).rst = false)
    (ht : sequencerTurn (samplePorts s) = false) :
    ∃ t, step s = .next t ∧ sameHardware t s ∧ t.inputs = s.inputs.tail := by
  rcases step_cases s with ⟨h, -⟩ | ⟨-, -, -, e⟩ | ⟨-, -, -, e⟩ | ⟨h, -, -⟩ | ⟨h, -, -⟩
  · exact absurd (hr.symm.trans h) nofun
  · exact ⟨_, e, ⟨rfl, rfl, rfl, rfl, fun _ => rfl⟩, rfl⟩
  · rw [memWrite_busy _ _ (advance s) hb] at e
    exact ⟨_, e, ⟨rfl, rfl, rfl, rfl, fun _ => rfl⟩, rfl⟩
  · exact absurd (ht.symm.trans h) nofun
  · exact absurd (ht.symm.trans h) nofun

/-- A busy core `s` and the quiet core `q`: the same hardware state, and no sample left for `q`. -/
structure QuietTwin (s q : State) : Prop where
  same : sameHardware s q
  busy : s.busy = true
  quiet : q.inputs = []

/-- With no sample left it is the sequencer's turn (log entry 2). -/
theorem sequencerTurn_of_quiet {q : State} (h : q.inputs = []) : sequencerTurn (samplePorts q) = true := by
  rw [samplePorts, h]
  rfl

section
variable {s q : State}

/-- A STEP reads and writes hardware state only, so the twins stay twins. -/
theorem step_round_twin (h : QuietTwin s q) (hi : s.i.toNat ≤ 63) (ht : sequencerTurn (samplePorts s) = true) :
    ∃ t r, step s = .next t ∧ step q = .next r ∧ QuietTwin t r ∧ t.i.toNat = s.i.toNat + 1 ∧
      t.inputs = s.inputs.tail := by
  obtain ⟨⟨hh, hw, hc, hy, hblk⟩, hb, hq⟩ := h
  have hstep := step_round (hy ▸ hb) (sequencerTurn_of_quiet hq) (hc ▸ hi)
  rw [← hc, ← hw, ← funext hblk] at hstep
  exact ⟨_, _, step_round hb ht hi, hstep, ⟨⟨hh, rfl, rfl, hy, hblk⟩, hb, congrArg List.tail hq⟩,
    counter_succ_toNat hi, rfl⟩

/-- A turn of the sequencer, the FOLD among them, leads to the same hardware state. -/
theorem step_turn_sameHardware (h : QuietTwin s q) (hi : s.i.toNat ≤ 64)
    (ht : sequencerTurn (samplePorts s) = true) :
    ∃ t r, step s = .next t ∧ step q = .next r ∧ sameHardware t r := by
  by_cases hround : s.i.toNat ≤ 63
  · obtain ⟨t, r, hs, hr, htwin, -⟩ := step_round_twin h hround ht
    exact ⟨t, r, hs, hr, htwin.same⟩
  · obtain ⟨⟨hh, hw, hc, hy, hblk⟩, hb, hq⟩ := h
    have h64 : s.i = 64#7 := BitVec.eq_of_toNat_eq (show s.i.toNat = 64 by omega)
    have hsum : addQuad s.h s.w = addQuad q.h q.w := by rw [hh, hw]
    exact ⟨_, _, step_fold hb ht h64, step_fold (hy ▸ hb) (sequencerTurn_of_quiet hq) (hc ▸ h64),
      hsum, hw, rfl, rfl, hblk⟩

/-- Samples without a reset that give a busy core `n` turns, none of them the FOLD, lead to the twin of the quiet run of
`n` steps. -/
theorem run_interleaved (es rest : List Ports) (h : QuietTwin s q) (hin : s.inputs = es ++ rest)
    (hr : ∀ p ∈ es, p.rst = false) (hi : s.i.toNat + es.countP sequencerTurn ≤ 64) :
    ∃ t r, run es.length s = .next t ∧ run (es.countP sequencerTurn) q = .next r ∧ QuietTwin t r ∧
      t.i.toNat ≤ 64 ∧ t.inputs = rest := by
  induction es generalizing s q with
  | nil => exact ⟨s, q, rfl, rfl, h, hi, hin⟩
  | cons p es ih =>
    have hp : samplePorts s = p := by
      rw [samplePorts, hin]
      rfl
    have htail : s.inputs.tail = es ++ rest := congrArg List.tail hin
    obtain ⟨hrp, hres⟩ := List.forall_mem_cons.mp hr
    cases ht : sequencerTurn p with
    | true =>
      rw [List.countP_cons_of_pos ht] at hi ⊢
      obtain ⟨u, v, hu, hv, htwin, hui, hun⟩ := step_round_twin h (by omega) (hp ▸ ht)
      rw [List.length_cons, run_succ hu, run_succ hv]
      exact ih htwin (hun.trans htail) hres (by omega)
    | false =>
      rw [List.countP_cons_of_neg (Bool.not_eq_true _ ▸ ht)] at hi ⊢
      obtain ⟨u, hu, hsame, hun⟩ := step_busy_host h.busy (hp ▸ hrp) (hp ▸ ht)
      have ⟨_, _, hui, hub, _⟩ := hsame
      rw [List.length_cons, run_succ hu]
      exact ih ⟨sameHardware_trans hsame h.same, hub.trans h.busy, h.quiet⟩ (hun.trans htail) hres (hui ▸ hi)

/-- The same with one more turn at the end, which may be the FOLD. -/
theorem run_interleaved_turn {es : List Ports} {p : Ports} (h : QuietTwin s q) (hin : s.inputs = es ++ [p])
    (hr : ∀ p ∈ es, p.rst = false) (hp : sequencerTurn p = true) (hi : s.i.toNat + es.countP sequencerTurn ≤ 64) :
    ∃ t r, run (es.length + 1) s = .next t ∧ run (es.countP sequencerTurn + 1) q = .next r ∧
      sameHardware t r := by
  obtain ⟨u, v, hu, hv, htwin, hui, hun⟩ := run_interleaved es [p] h hin hr hi
  have hpu : sequencerTurn (samplePorts u) = true := by rwa [samplePorts, hun]
  obtain ⟨t, r, ht, hr, hsame⟩ := step_turn_sameHardware htwin hui hpu
  exact ⟨t, r, (run_add _ 1 hu).trans (run_succ ht 0), (run_add _ 1 hv).trans (run_succ hr 0), hsame⟩

end

/-- Settles O53: both runs lead to the hardware state of one quiet run. -/
theorem interleavingIrrelevant : Obligations.InterleavingIrrelevant := by
  intro s s' es es' p p' hsame hb hin hin' hr hr' hp hp' hcount hi
  have hquiet : sameHardware s { s with inputs := [] } := ⟨rfl, rfl, rfl, rfl, fun _ => rfl⟩
  have hquiet' := sameHardware_trans (sameHardware_symm hsame) hquiet
  obtain ⟨-, -, hc, hy, -⟩ := hsame
  obtain ⟨t, u, ht, hu, htu⟩ := run_interleaved_turn ⟨hquiet, hb, rfl⟩ hin hr hp hi
  obtain ⟨t', u', ht', hu', htu'⟩ :=
    run_interleaved_turn ⟨hquiet', hy ▸ hb, rfl⟩ hin' hr' hp' (hc ▸ hcount ▸ hi)
  rw [hcount, hu', Host.Outcome.next.injEq] at hu
  exact ⟨t, t', ht, ht', sameHardware_trans htu (hu ▸ sameHardware_symm htu')⟩

end Sys2Proof.Machine

namespace Sys2Proof.Machine

/-! ### Operation selection from the step word (R81, R82) -/

section
variable {w : StepIdx}

/-- The step words 16 r to 16 r + 15 have `r` in their bits 6:4 (R81). -/
theorem stepSelect_eq {r : BitVec 3} (h : w.toNat / 16 = r.toNat) : stepSelect w = r :=
  BitVec.eq_of_toNat_eq ((stepSelect_toNat w).trans h)

theorem decodeStep_stepF (h : w.toNat / 16 = 0) : decodeStep w = .ok (.stepF w) := by
  rw [decodeStep, if_pos (stepSelect_eq h)]

theorem decodeStep_stepG (h : w.toNat / 16 = 1) : decodeStep w = .ok (.stepG w) := by
  have hsel : stepSelect w = 1#3 := stepSelect_eq h
  simp [decodeStep, hsel]

theorem decodeStep_stepH (h : w.toNat / 16 = 2) : decodeStep w = .ok (.stepH w) := by
  have hsel : stepSelect w = 2#3 := stepSelect_eq h
  simp [decodeStep, hsel]

theorem decodeStep_stepI (h : w.toNat / 16 = 3) : decodeStep w = .ok (.stepI w) := by
  have hsel : stepSelect w = 3#3 := stepSelect_eq h
  simp [decodeStep, hsel]

end

/-- Settles O3: bits 6:4 are the word divided by 16, and the words beyond FOLD are reserved. -/
theorem stepWordSelectsOperation : Obligations.StepWordSelectsOperation := by
  refine fun w => ⟨decodeStep_stepF, decodeStep_stepG, decodeStep_stepH, decodeStep_stepI, fun h => ?_,
    decodeStep_reserved⟩
  obtain rfl : w = 0x40#7 := BitVec.eq_of_toNat_eq h
  rfl

/-- The step word an operation is decoded from names it: the operation is well-formed and is encoded as that word. -/
theorem wf_encode_of_decodeStep {w : StepIdx} {i : Instr} (h : decodeStep w = .ok i) :
    i.wf = true ∧ encode i = .step w := by
  rcases decodeStep_cases w with ⟨hi, e⟩ | ⟨lo, hi, e⟩ | ⟨lo, hi, e⟩ | ⟨lo, hi, e⟩ | ⟨rfl, e⟩ | ⟨-, e⟩ <;>
    rw [e] at h <;> cases h
  · exact ⟨decide_eq_true hi, rfl⟩
  · exact ⟨decide_eq_true ⟨lo, hi⟩, rfl⟩
  · exact ⟨decide_eq_true ⟨lo, hi⟩, rfl⟩
  · exact ⟨decide_eq_true ⟨lo, hi⟩, rfl⟩
  · exact ⟨rfl, rfl⟩

/-! ### Operation selection from the bus word (R86, R87) -/

/-- A bus word is made of its own three fields (R86). -/
theorem busWord_of_fields (w : BitVec 16) : busWord (busWrite w) (busAddr w) (busData w) = w := by
  have hbit : BitVec.ofBool (w.getLsbD 15) = w.extractLsb' 15 1 := by
    apply BitVec.eq_of_getLsbD_eq
    intro k hk
    obtain rfl : k = 0 := by omega
    simp
  rw [busWord, busWrite, busAddr, busData, hbit, BitVec.extractLsb'_append_extractLsb'_eq_extractLsb' (by rfl),
    BitVec.extractLsb'_append_extractLsb'_eq_extractLsb' (by rfl)]
  exact BitVec.extractLsb'_eq_self

/-- A word without bit 15 is a read, whatever its DATA field (R86, R87). -/
theorem decodeBus_read (a : Addr) (d : Byte) : decodeBus (busWord false a d) = .rd a := by
  obtain ⟨hwrite, haddr, -⟩ := busWord_fields false a d
  have hne : ∀ v, busWrite v = true → busWord false a d ≠ v := by
    rintro v hv rfl
    exact absurd (hwrite.symm.trans hv) nofun
  rw [decodeBus, if_neg (hne _ (by decide)), if_neg (hne _ (by decide)), if_neg (hne _ (by decide)), hwrite, haddr,
    if_neg nofun]

/-- A write word that is no command is a WR of its fields (R87). -/
theorem decodeBus_write {a : Addr} {d : Byte} (h : ¬ (a = 0x50#7 ∧ d.toNat ≤ 2)) :
    decodeBus (busWord true a d) = .wr a d := by
  obtain ⟨hwrite, haddr, hdata⟩ := busWord_fields true a d
  have hne : ∀ v, busAddr v = 0x50#7 → (busData v).toNat ≤ 2 → busWord true a d ≠ v := by
    rintro v ha hd rfl
    exact h ⟨haddr.symm.trans ha, hdata ▸ hd⟩
  rw [decodeBus, if_neg (hne _ (by decide) (by decide)), if_neg (hne _ (by decide) (by decide)),
    if_neg (hne _ (by decide) (by decide)), hwrite, haddr, hdata, if_pos rfl]

/-- Settles O4: the bus word of the fields is read back from them, the three commands by their own words. -/
theorem busWordSelectsTransaction : Obligations.BusWordSelectsTransaction :=
  fun a d => ⟨congrArg _ (decodeBus_read a d), fun h => congrArg _ (decodeBus_write h), rfl, rfl, rfl⟩

/-- A WR is well-formed unless its word is a command's (R87). -/
theorem wf_wr_iff (a : Addr) (d : Byte) : (Instr.wr a d).wf = true ↔ ¬ (a = 0x50#7 ∧ d.toNat ≤ 2) := by
  simp [Instr.wf, imp_iff_not_or]

/-- Settles O1, format by format: a STEP's index lies in its round, and a WR's word is no command's. -/
theorem decodeOfEncode : Obligations.DecodeOfEncode := by
  intro i h
  cases i with
  | stepF k =>
    have hk : k.toNat ≤ 15 := of_decide_eq_true h
    exact decodeStep_stepF (by omega)
  | stepG k =>
    have hk : 16 ≤ k.toNat ∧ k.toNat ≤ 31 := of_decide_eq_true h
    exact decodeStep_stepG (by omega)
  | stepH k =>
    have hk : 32 ≤ k.toNat ∧ k.toNat ≤ 47 := of_decide_eq_true h
    exact decodeStep_stepH (by omega)
  | stepI k =>
    have hk : 48 ≤ k.toNat ∧ k.toNat ≤ 63 := of_decide_eq_true h
    exact decodeStep_stepI (by omega)
  | fold => rfl
  | rd a => exact congrArg _ (decodeBus_read a 0x00#8)
  | wr a d => exact congrArg _ (decodeBus_write ((wf_wr_iff a d).mp h))
  | nop => rfl
  | init => rfl
  | start => rfl

/-- Clearing the low byte of a bus word clears its DATA field and nothing else (R86). -/
theorem busWord_clear_data (we : Bool) (a : Addr) (d : Byte) :
    busWord we a d &&& 0xFF00#16 = busWord we a 0x00#8 := by
  have hmask : 0xFF00#16 = BitVec.allOnes 8 ++ 0x00#8 := rfl
  rw [busWord, hmask, BitVec.and_append, BitVec.and_allOnes, BitVec.and_zero]
  rfl

/-- The bytes of the command words (R87). -/
theorem byte_le_two {d : Byte} (h : d.toNat ≤ 2) : d = 0x00#8 ∨ d = 0x01#8 ∨ d = 0x02#8 := by
  simp only [← BitVec.toNat_inj, BitVec.toNat_ofNat]
  omega

/-- The write word an instruction is decoded from names it. -/
theorem wf_encode_of_write (a : Addr) (d : Byte) :
    (decodeBus (busWord true a d)).wf = true ∧
    encode (decodeBus (busWord true a d)) = .bus (busWord true a d) := by
  by_cases hc : a = 0x50#7 ∧ d.toNat ≤ 2
  · obtain ⟨rfl, hd⟩ := hc
    rcases byte_le_two hd with rfl | rfl | rfl <;> exact ⟨rfl, rfl⟩
  · rw [decodeBus_write hc]
    exact ⟨(wf_wr_iff a d).mpr hc, rfl⟩

/-- A write word never decodes to a read. -/
theorem decodeBus_write_ne_rd (a b : Addr) (d : Byte) : decodeBus (busWord true a d) ≠ .rd b := by
  intro h
  have hword := (wf_encode_of_write a d).2
  rw [h] at hword
  have hbit := congrArg busWrite (InstrWord.bus.inj hword)
  rw [(busWord_fields false b 0x00#8).1, (busWord_fields true a d).1] at hbit
  exact absurd hbit nofun

/-- Settles O2: a step word by its range, a bus word by its fields. -/
theorem encodeOfDecode : Obligations.EncodeOfDecode := by
  refine ⟨fun w i => wf_encode_of_decodeStep, fun w i h => ?_⟩
  obtain rfl : decodeBus w = i := Except.ok.inj h
  rw [← busWord_of_fields w]
  cases busWrite w with
  | false =>
    rw [decodeBus_read, busWord_clear_data]
    exact ⟨rfl, fun hne => absurd rfl (hne _), fun _ _ => rfl⟩
  | true =>
    obtain ⟨hwf, hword⟩ := wf_encode_of_write (busAddr w) (busData w)
    exact ⟨hwf, fun _ => hword, fun b hb => absurd hb (decodeBus_write_ne_rd _ b _)⟩

/-- Settles O5: a bus word gives a byte or does what MemWrite does. -/
theorem everyBusWordCompletes : Obligations.EveryBusWordCompletes := by
  intro w s
  rcases exec_decodeBus w s with ⟨-, e⟩ | ⟨-, e⟩
  · exact ⟨_, _, rfl, e⟩
  · exact ⟨_, _, rfl, e⟩

/-- Settles O6: the decoder evaluates each word. -/
theorem specWordsDecode : Obligations.SpecWordsDecode :=
  ⟨rfl, rfl, rfl, rfl, rfl, rfl, rfl, rfl, rfl, rfl⟩

/-! ### The word that is placed runs next (log entry 10) -/

/-- The sample that presents a bus word is the transaction of that word (R86, R160). -/
theorem nextAction_busSample {s : State} {w : BitVec 16} {rest : List Ports} (h : s.inputs = busSample w :: rest) :
    nextAction s = .transaction w := by
  have hp : samplePorts s = busSample w := by
    rw [samplePorts, h]
    rfl
  rw [nextAction, hp]
  exact congrArg Action.transaction (busWord_of_fields w)

/-- Settles O8: the placed sample presents the bus word, and the placed counter is the step word. -/
theorem placedWordRunsNext : Obligations.PlacedWordRunsNext := by
  refine fun s i => ⟨fun w hd => ?_, fun w hd => ?_⟩
  · have hw : BitVec.ofNat 16 w.toNat = w := BitVec.ofNat_toNat ..
    have hin : (s.withFetchWord 16 w.toNat).inputs = busSample w :: s.inputs :=
      congrArg (fun v => busSample v :: s.inputs) hw
    exact (stepRunsDecodedWord _ i).1 w (nextAction_busSample hin) hd
  · have hw : s.withFetchWord 8 w.toNat = { s with i := w, busy := true, inputs := Ports.idle :: s.inputs } := by
      rw [State.withFetchWord, if_pos (by decide), BitVec.ofNat_toNat, BitVec.setWidth_eq]
    rw [hw]
    exact (stepRunsDecodedWord _ i).2 w rfl hd

/-! ### The fixed program of the sequencer (R84, R150) -/

/-- While no sample is left a busy core counts up, step by step, to the counter 64 at most. -/
theorem run_quiet (k : Nat) {s : State} (hb : s.busy = true) (hin : s.inputs = []) (hk : s.i.toNat + k ≤ 64) :
    ∃ t, run k s = .next t ∧ t.busy = true ∧ t.inputs = [] ∧ t.i.toNat = s.i.toNat + k := by
  induction k generalizing s with
  | zero => exact ⟨s, rfl, hb, hin, rfl⟩
  | succ k ih =>
    have hi : s.i.toNat ≤ 63 := by omega
    have hsucc := counter_succ_toNat hi
    rw [run_succ (step_round hb (sequencerTurn_of_quiet hin) hi)]
    obtain ⟨t, ht, htb, htin, hti⟩ :=
      ih (s := setI (s.i + 1) (setW (stepQuad s.i s.w (blkByte s)) (advance s))) hb (congrArg List.tail hin)
        (by rw [setI_i]; omega)
    rw [setI_i] at hti
    exact ⟨t, ht, htb, htin, by omega⟩

/-- Settles O52: the STEPs count up to 64, and one more step is the FOLD. -/
theorem sequencerRunsTheProgram : Obligations.SequencerRunsTheProgram := by
  refine fun s hb hi hin => ⟨fun k hk => ?_, ?_⟩
  · obtain ⟨t, ht, htb, htin, hti⟩ := run_quiet k hb hin hk
    refine ⟨t, ht, htb, ?_⟩
    rw [nextAction_of_turn (sequencerTurn_of_quiet htin) htb, ← hti, BitVec.ofNat_toNat, BitVec.setWidth_eq]
  · obtain ⟨t, ht, htb, htin, hti⟩ := run_quiet (64 - s.i.toNat) hb hin (by omega)
    have h64 : t.i = 64#7 := BitVec.eq_of_toNat_eq (show t.i.toNat = 64 by omega)
    have hfold := step_fold htb (sequencerTurn_of_quiet htin) h64
    rw [show 65 - s.i.toNat = 64 - s.i.toNat + 1 by omega, run_add _ 1 ht, run_succ hfold]
    exact ⟨_, rfl, rfl, rfl⟩

/-! ### Loading the block (R94, R162) -/

/-- On an idle core a presented write to BLK stores its byte (R162). -/
theorem step_wr_blk {s : State} {n : Nat} {v : Byte} {rest : List Ports} (hb : s.busy = false) (hn : n < 64)
    (hin : s.inputs = wr (BitVec.ofNat 7 n) v :: rest) :
    step s = .next (setBlk (BitVec.ofNat 6 n) v (advance s)) := by
  have haddr : (BitVec.ofNat 7 n).toNat = n := by
    rw [BitVec.toNat_ofNat]
    omega
  have hle : (BitVec.ofNat 7 n).toNat ≤ 0x3F := by omega
  have hindex : (BitVec.ofNat 7 n).extractLsb' 0 6 = BitVec.ofNat 6 n := by
    refine BitVec.eq_of_toNat_eq ?_
    rw [blkIndex_toNat _ hle, haddr, BitVec.toNat_ofNat, Nat.mod_eq_of_lt hn]
  have hd : decodeBus (busWord true (BitVec.ofNat 7 n) v) = .wr (BitVec.ofNat 7 n) v :=
    decodeBus_write fun h => by
      rw [h.1] at hle
      exact absurd hle (by decide)
  rw [(stepRunsDecodedWord s _).1 _ (nextAction_busSample hin) (congrArg _ hd)]
  refine congrArg Host.Outcome.next ?_
  rw [memWrite_blk hle v (s := advance s) hb, hindex]

/-- The writes of `ldblk` from address `n` on store their bytes there, leave the other bytes of BLK as they were, and
change nothing else. -/
theorem run_ldblkFrom (bs : List Byte) (rest : List Ports) {n : Nat} {s : State} (hb : s.busy = false)
    (hn : n + bs.length ≤ 64) (hin : s.inputs = ldblkFrom n bs ++ rest) :
    ∃ t, run bs.length s = .next t ∧ t = { s with blk := t.blk, inputs := rest } ∧
      ∀ m : BitVec 6, blkByte t m =
        if n ≤ m.toNat ∧ m.toNat < n + bs.length then bs.getD (m.toNat - n) 0 else blkByte s m := by
  induction bs generalizing n s with
  | nil =>
    obtain rfl : s.inputs = rest := hin
    exact ⟨s, rfl, rfl, fun m => (if_neg (by rw [List.length_nil]; omega)).symm⟩
  | cons b bs ih =>
    rw [List.length_cons] at hn ⊢
    rw [run_succ (step_wr_blk hb (by omega) hin)]
    obtain ⟨t, ht, hframe, hblk⟩ := ih (n := n + 1) (s := setBlk (BitVec.ofNat 6 n) b (advance s)) hb (by omega)
      (congrArg List.tail hin)
    refine ⟨t, ht, hframe, fun m => ?_⟩
    have hm : m = BitVec.ofNat 6 n ↔ m.toNat = n := by
      rw [← BitVec.toNat_inj, BitVec.toNat_ofNat, Nat.mod_eq_of_lt (by omega)]
    rw [hblk, blkByte_setBlk, blkByte_advance]
    simp only [hm]
    rcases Nat.lt_trichotomy m.toNat n with h | h | h
    · rw [if_neg (by omega), if_neg (by omega), if_neg (by omega)]
    · rw [if_neg (by omega), if_pos h, if_pos (by omega), h, Nat.sub_self, List.getD_cons_zero]
    · obtain ⟨j, hj⟩ : ∃ j, m.toNat - n = j + 1 := ⟨m.toNat - n - 1, by omega⟩
      have hj' : m.toNat - (n + 1) = j := by omega
      rw [hj, hj', List.getD_cons_succ, if_neg (by omega : ¬ m.toNat = n)]
      exact if_congr (by omega) rfl rfl

/-- Settles O55: the writes from address 0 on cover the whole buffer. -/
theorem loadBlock : Obligations.LoadBlock := by
  intro s bs rest hb hlen hin
  obtain ⟨t, ht, hframe, hblk⟩ := run_ldblkFrom bs rest hb (by omega) hin
  refine ⟨t, hlen ▸ ht, hframe, fun m => ?_⟩
  rw [hblk, if_pos (by omega)]
  rfl

end Sys2Proof.Machine

namespace Sys2Proof.Machine

/-! ### The constant tables (R110 to R114) -/

theorem sTable_bounds : ∀ n ∈ sTable, 4 ≤ n.toNat ∧ n.toNat ≤ 23 := by decide

theorem rotAmount_mem_sTable (r c : BitVec 2) : rotAmount r c ∈ sTable := by
  have hindex : 4 * r.toNat + c.toNat < sTable.length := by
    change _ < 16
    omega
  rw [rotAmount, List.getD_eq_getElem _ _ hindex]
  exact List.getElem_mem hindex

/-- The rows of R110. -/
theorem rotAmount_toNat : ∀ r c : BitVec 2,
    (rotAmount r c).toNat =
      ([[7, 12, 17, 22], [5, 9, 14, 20], [4, 11, 16, 23], [6, 10, 15, 21]].getD r.toNat []).getD c.toNat 0 := by
  decide

theorem kTable_bounds : ∀ n : Fin kTable.length, 0x02441453 ≤ kTable[n].toNat ∧ kTable[n].toNat ≤ 0xFFFF5BB1 := by
  decide

theorem kTable_nodup : kTable.Nodup := by decide

theorem lt_kTable_length {i : StepIdx} (hi : i.toNat ≤ 63) : i.toNat < kTable.length := Nat.lt_succ_of_le hi

/-- At the counter value of a STEP, `K` is read at the value itself (R81). -/
theorem kConst_eq_getElem {i : StepIdx} (hi : i.toNat ≤ 63) : kConst i = kTable[i.toNat]'(lt_kTable_length hi) := by
  rw [kConst, blkIndex_toNat i hi]
  exact List.getD_eq_getElem _ _ (lt_kTable_length hi)

theorem kConst_bounds {i : StepIdx} (hi : i.toNat ≤ 63) :
    0x02441453 ≤ (kConst i).toNat ∧ (kConst i).toNat ≤ 0xFFFF5BB1 := by
  rw [kConst_eq_getElem hi]
  exact kTable_bounds ⟨i.toNat, lt_kTable_length hi⟩

theorem kConst_injective {i j : StepIdx} (hi : i.toNat ≤ 63) (hj : j.toNat ≤ 63) (h : kConst i = kConst j) :
    i = j := by
  rw [kConst_eq_getElem hi, kConst_eq_getElem hj, kTable_nodup.getElem_inj_iff] at h
  exact BitVec.eq_of_toNat_eq h

/-- Settles O44: the entries meet the bounds, no entry of `K` stands twice, and 0 lies below the least one. -/
theorem tableEntries : Obligations.TableEntries := by
  refine ⟨fun r c => ⟨rotAmount_toNat r c, sTable_bounds _ (rotAmount_mem_sTable r c)⟩, fun i hi => ?_, rfl, rfl,
    fun _ _ => kConst_injective⟩
  obtain ⟨hlo, hhi⟩ := kConst_bounds hi
  refine ⟨hlo, hhi, fun h0 => ?_⟩
  rw [h0] at hlo
  exact absurd hlo (by decide)

end Sys2Proof.Machine

namespace Sys2Proof.Machine

/-! ### The value of a block word (R120) -/

/-- An appended bit string stands, shifted by the other's width, above it. -/
theorem append_toNat {m n : Nat} (x : BitVec m) (y : BitVec n) :
    (x ++ y).toNat = 2 ^ n * x.toNat + y.toNat := by
  rw [BitVec.toNat_append, ← Nat.shiftLeft_add_eq_or_of_lt y.isLt, Nat.shiftLeft_eq, Nat.mul_comm]

theorem unpack_toNat (bytes : BitVec 6 → Byte) (j : BitVec 4) :
    (unpack bytes j).toNat = (bytes (j ++ 0#2)).toNat + 2 ^ 8 * (bytes (j ++ 1#2)).toNat
      + 2 ^ 16 * (bytes (j ++ 2#2)).toNat + 2 ^ 24 * (bytes (j ++ 3#2)).toNat := by
  rw [unpack, append_toNat, append_toNat, append_toNat]
  omega

/-- The block word index followed by two bits is the byte's address in BLK. -/
theorem blockByteIndex_eq_ofNat (j : Nat) (k : BitVec 2) :
    BitVec.ofNat 4 j ++ k = BitVec.ofNat 6 (4 * j + k.toNat) := by
  refine BitVec.eq_of_toNat_eq ?_
  rw [append_toNat, BitVec.toNat_ofNat, BitVec.toNat_ofNat]
  omega

/-- Settles O35: the word's value is the sum over its four bytes, and byte `k` of word `j` has the address `4 j + k`. -/
theorem blockWordLittleEndian : Obligations.BlockWordLittleEndian := by
  intro s j _
  rw [msgWord, unpack_toNat]
  simp only [blockByteIndex_eq_ofNat]
  rfl

/-! ### The schedule index (R122, R123) -/

/-- The four formulas of R122, of the step index or of the step within the round. -/
def schedRow (r x : Nat) : Nat := [x, (5 * x + 1) % 16, (3 * x + 5) % 16, (7 * x) % 16].getD r 0

/-- The step within round `r` that takes block word `k`: 13, 11 and 7 are the inverses of 5, 3 and 7 modulo 16, and 15
and 11 stand for -1 and -5. -/
def schedRowInv (r k : Nat) : Nat := [k, 13 * (k + 15) % 16, 11 * (k + 11) % 16, 7 * k % 16].getD r 0

section
variable {r x k : Nat}

/-- The rounds before the first step of a round add a multiple of 16 (R123). -/
theorem schedRow_add_round (hr : r < 4) : schedRow r (16 * r + x) = schedRow r x := by
  interval_cases r <;> simp only [schedRow, List.getD_cons_zero, List.getD_cons_succ] <;> omega

theorem schedRowInv_lt (hr : r < 4) (hk : k < 16) : schedRowInv r k < 16 := by
  interval_cases r <;> simp only [schedRowInv, List.getD_cons_zero, List.getD_cons_succ] <;> omega

/-- Each row is a permutation of 0..15 (R123). -/
theorem schedRow_eq_iff (hr : r < 4) (hx : x < 16) (hk : k < 16) : schedRow r x = k ↔ x = schedRowInv r k := by
  interval_cases r <;> simp only [schedRow, schedRowInv, List.getD_cons_zero, List.getD_cons_succ] <;> omega

end

theorem sched_toNat {i : StepIdx} (hi : i.toNat ≤ 63) : (sched i).toNat = schedRow (i.toNat / 16) i.toNat := by
  obtain h | h | h | h : i.toNat / 16 = 0 ∨ i.toNat / 16 = 1 ∨ i.toNat / 16 = 2 ∨ i.toNat / 16 = 3 := by omega
  · rw [sched, if_pos (roundIdx_eq h), h, schedF, BitVec.extractLsb'_toNat]
    exact Nat.mod_eq_of_lt (by omega)
  · have hr : roundIdx i = 1#2 := roundIdx_eq h
    simp [sched, hr, schedG, h, schedRow]
  · have hr : roundIdx i = 2#2 := roundIdx_eq h
    simp [sched, hr, schedH, h, schedRow]
  · have hr : roundIdx i = 3#2 := roundIdx_eq h
    simp [sched, hr, schedI, h, schedRow]

/-- `k(i)` depends on the round and the step within the round only (R123). -/
theorem sched_toNat_inRound {r x : Nat} (hr : r < 4) (hx : x < 16) :
    (sched (BitVec.ofNat 7 (16 * r + x))).toNat = schedRow r x := by
  have hi : (BitVec.ofNat 7 (16 * r + x)).toNat = 16 * r + x := by
    rw [BitVec.toNat_ofNat]
    omega
  rw [sched_toNat (by omega), hi, show (16 * r + x) / 16 = r by omega, schedRow_add_round hr]

/-- The 4-bit shift forms of R123. -/
theorem schedShift_toNat {r : Nat} (hr : r < 4) (x : BitVec 4) :
    ([x, (x <<< 2) + x + 1, (x <<< 1) + x + 5, (x <<< 3) - x].getD r 0).toNat = schedRow r x.toNat := by
  interval_cases r <;> simp [schedRow, BitVec.toNat_sub, Nat.shiftLeft_eq] <;> omega

theorem sched_eq_iff {r x : Nat} (hr : r < 4) (hx : x < 16) (k : BitVec 4) :
    sched (BitVec.ofNat 7 (16 * r + x)) = k ↔ x = schedRowInv r k.toNat := by
  rw [← BitVec.toNat_inj, sched_toNat_inRound hr hx, schedRow_eq_iff hr hx k.isLt]

/-- Settles O43: the four formulas, the shift forms of the same value, and the inverse of each row. -/
theorem schedulePermutesWords : Obligations.SchedulePermutesWords := by
  refine ⟨fun i => sched_toNat, fun r x hr => ?_, fun r k hr => ?_⟩
  · have hrow := sched_toNat_inRound hr x.isLt
    exact ⟨hrow, BitVec.eq_of_toNat_eq (hrow.trans (schedShift_toNat hr x).symm)⟩
  · have hlt := schedRowInv_lt hr k.isLt
    exact ⟨_, hlt, (sched_eq_iff hr hlt k).mpr rfl, fun y hy => (sched_eq_iff hr hy k).mp⟩

end Sys2Proof.Machine

namespace Sys2Proof.Machine

/-! ### The round functions bit by bit (R130 to R136) -/

section
variable {n : Nat} (hn : n < 32)
include hn

theorem getLsbD_not32 (x : Word) : (not32 x).getLsbD n = !x.getLsbD n := by
  simp [not32, hn]

/-- F selects between `c` and `d` by the bit of `b` (R131). -/
theorem getLsbD_roundF (b c d : Word) :
    (roundF b c d).getLsbD n = if b.getLsbD n then c.getLsbD n else d.getLsbD n := by
  rw [roundF, BitVec.getLsbD_or, BitVec.getLsbD_and, BitVec.getLsbD_and, getLsbD_not32 hn]
  cases b.getLsbD n <;> simp

theorem getLsbD_roundI (b c d : Word) :
    (roundI b c d).getLsbD n = (c.getLsbD n ^^ (b.getLsbD n || !d.getLsbD n)) := by
  rw [roundI, BitVec.getLsbD_xor, BitVec.getLsbD_or, getLsbD_not32 hn]

theorem getLsbD_ones : (0xFFFFFFFF#32).getLsbD n = true :=
  (BitVec.getLsbD_allOnes (v := 32)).trans (decide_eq_true hn)

end

theorem getLsbD_roundH (b c d : Word) (n : Nat) :
    (roundH b c d).getLsbD n = (b.getLsbD n ^^ c.getLsbD n ^^ d.getLsbD n) := by
  rw [roundH, BitVec.getLsbD_xor, BitVec.getLsbD_xor]

/-- G is F with `d` as the selector (R132). -/
theorem roundG_eq_roundF (b c d : Word) : roundG b c d = roundF d b c := by
  rw [roundG, roundF, BitVec.and_comm b d, BitVec.and_comm c]

/-- The eight rows of R136's table: the selector on the first input, the selector on the last, and the formulas of H
and I. -/
theorem roundTable_rows : ∀ b c d : Bool,
    let index := 4 * b.toNat + 2 * c.toNat + d.toNat
    (if b then c else d) = (0xCA#8).getLsbD index ∧ (if d then b else c) = (0xE4#8).getLsbD index ∧
    (b ^^ c ^^ d) = (0x96#8).getLsbD index ∧ (c ^^ (b || !d)) = (0x39#8).getLsbD index := by
  decide

/-- Settles O41: bit `n` of each output is its formula on the three bits `n`, which is a row of the table. -/
theorem roundFunctionTruthTables : Obligations.RoundFunctionTruthTables := by
  refine ⟨fun b c d n hn => ?_, by decide⟩
  rw [roundG_eq_roundF, getLsbD_roundF hn, getLsbD_roundF hn, getLsbD_roundH, getLsbD_roundI hn]
  exact roundTable_rows (b.getLsbD n) (c.getLsbD n) (d.getLsbD n)

/-! ### Corner cases of the round functions (R130 to R135) -/

theorem not32_toNat (x : Word) : (not32 x).toNat = 2 ^ 32 - 1 - x.toNat := BitVec.toNat_not

theorem roundF_zero (c d : Word) : roundF 0 c d = d :=
  BitVec.eq_of_getLsbD_eq fun n hn => by simp [getLsbD_roundF hn]

theorem roundF_ones (c d : Word) : roundF 0xFFFFFFFF#32 c d = c :=
  BitVec.eq_of_getLsbD_eq fun n hn => by rw [getLsbD_roundF hn, getLsbD_ones hn, if_pos rfl]

theorem roundF_self (b x : Word) : roundF b x x = x :=
  BitVec.eq_of_getLsbD_eq fun n hn => by rw [getLsbD_roundF hn, ite_self]

theorem roundG_zero (b c : Word) : roundG b c 0 = c := by rw [roundG_eq_roundF, roundF_zero]

theorem roundG_ones (b c : Word) : roundG b c 0xFFFFFFFF#32 = b := by rw [roundG_eq_roundF, roundF_ones]

theorem roundH_self (x d : Word) : roundH x x d = d := by rw [roundH, BitVec.xor_self, BitVec.zero_xor]

theorem roundI_zero (b c : Word) : roundI b c 0 = not32 c :=
  BitVec.eq_of_getLsbD_eq fun n hn => by simp [getLsbD_roundI hn, getLsbD_not32 hn]

/-- Settles O42: the corner cases one by one; the multiplexer evaluates its select. -/
theorem roundFunctionCorners : Obligations.RoundFunctionCorners := fun b c d x =>
  ⟨not32_toNat x, roundF_zero c d, roundF_ones c d, roundF_self b x, roundG_zero b c, roundG_ones b c,
    roundG_eq_roundF b c d, roundH_self x d, roundI_zero b c, rfl, rfl, rfl, rfl⟩

end Sys2Proof.Machine

namespace Sys2Proof.Machine

/-! ### A block computation under any interleaving (R150, R151) -/

/-- `t` has done the first `n` steps of the block that began from `s` (R151): `H` and BLK are still those of `s`. -/
structure BlockProgress (s : State) (n : Nat) (t : State) : Prop where
  busy : t.busy = true
  counter : t.i.toNat = n
  h : t.h = s.h
  w : t.w = workAfter s.h (blkByte s) n
  blk : blkByte t = blkByte s

/-- An idle core's START is accepted and begins the block (R167). -/
theorem step_startSample {s : State} {rest : List Ports} (hb : s.busy = false)
    (hin : s.inputs = startSample :: rest) : step s = .next (startBlock (advance s)) := by
  rw [(stepRunsDecodedWord s .start).1 _ (nextAction_busSample hin) rfl]
  exact (execStart_next _ _).mpr (by rw [advance_busy, hb, if_neg nofun])

theorem blockProgress_start (s : State) : BlockProgress s 0 (startBlock (advance s)) :=
  ⟨rfl, rfl, rfl, rfl, rfl⟩

section
variable {s t : State} {n : Nat}

/-- A turn of the sequencer before the FOLD does the next step of the block. -/
theorem blockProgress_turn (h : BlockProgress s n t) (hn : n < 64) (ht : sequencerTurn (samplePorts t) = true) :
    ∃ u, step t = .next u ∧ BlockProgress s (n + 1) u ∧ u.inputs = t.inputs.tail := by
  obtain ⟨hb, hi, hh, hw, hblk⟩ := h
  have hle : t.i.toNat ≤ 63 := by omega
  refine ⟨_, step_round hb ht hle, ⟨hb, (counter_succ_toNat hle).trans (congrArg _ hi), hh, ?_, hblk⟩, rfl⟩
  rw [workAfter_succ, ← hi, BitVec.ofNat_toNat, BitVec.setWidth_eq, hi, ← hw, ← hblk]
  rfl

/-- A host transaction leaves the block where it is (R55, R62). -/
theorem blockProgress_host (h : BlockProgress s n t) (hr : (samplePorts t).rst = false)
    (ht : sequencerTurn (samplePorts t) = false) :
    ∃ u, step t = .next u ∧ BlockProgress s n u ∧ u.inputs = t.inputs.tail := by
  obtain ⟨hb, hi, hh, hw, hblk⟩ := h
  obtain ⟨u, hu, ⟨hh', hw', hi', hb', hblk'⟩, hin⟩ := step_busy_host hb hr ht
  exact ⟨u, hu, ⟨hb'.trans hb, hi' ▸ hi, hh'.trans hh, hw'.trans hw, (funext hblk').trans hblk⟩, hin⟩

/-- Samples without a reset that stop short of the FOLD do one step of the block for each turn of the sequencer. -/
theorem run_blockProgress (es rest : List Ports) (h : BlockProgress s n t) (hin : t.inputs = es ++ rest)
    (hr : ∀ q ∈ es, q.rst = false) (hn : n + es.countP sequencerTurn ≤ 64) :
    ∃ u, run es.length t = .next u ∧ BlockProgress s (n + es.countP sequencerTurn) u ∧ u.inputs = rest := by
  induction es generalizing t n with
  | nil => exact ⟨t, rfl, h, hin⟩
  | cons p es ih =>
    have hp : samplePorts t = p := by
      rw [samplePorts, hin]
      rfl
    obtain ⟨hrp, hres⟩ := List.forall_mem_cons.mp hr
    cases ht : sequencerTurn p with
    | true =>
      rw [List.countP_cons_of_pos ht] at hn ⊢
      obtain ⟨u, hu, hprog, htail⟩ := blockProgress_turn h (by omega) (hp ▸ ht)
      rw [List.length_cons, run_succ hu, Nat.add_comm (es.countP _), ← Nat.add_assoc]
      exact ih hprog (htail.trans (congrArg List.tail hin)) hres (by omega)
    | false =>
      rw [List.countP_cons_of_neg (Bool.not_eq_true _ ▸ ht)] at hn ⊢
      obtain ⟨u, hu, hprog, htail⟩ := blockProgress_host h (hp ▸ hrp) (hp ▸ ht)
      rw [List.length_cons, run_succ hu]
      exact ih hprog (htail.trans (congrArg List.tail hin)) hres hn

/-- The turn after the 64th step is the FOLD, and it completes COMPRESS1 (R149, R151). -/
theorem blockProgress_fold (h : BlockProgress s 64 t) (ht : sequencerTurn (samplePorts t) = true) :
    ∃ u, step t = .next u ∧ u.busy = false ∧ u.i = 0#7 ∧ u.h = compress1 s.h (blkByte s) ∧
      blkByte u = blkByte s ∧ u.inputs = t.inputs.tail := by
  obtain ⟨hb, hi, hh, hw, hblk⟩ := h
  refine ⟨_, step_fold hb ht (BitVec.eq_of_toNat_eq hi), rfl, rfl, ?_, hblk, rfl⟩
  rw [compress1, ← hw, ← hh]
  rfl

end

/-- Settles O51: every beginning of the interleaving is a block in progress, and after all of it comes the FOLD. -/
theorem blockComputation : Obligations.BlockComputation := by
  intro s es p rest hb hin hr hcount hp
  have hstart := step_startSample hb hin
  have hrest : (startBlock (advance s)).inputs = es ++ p :: rest := congrArg List.tail hin
  refine ⟨fun k hk hk' => ?_, ?_⟩
  · obtain ⟨k, rfl⟩ := Nat.exists_eq_add_of_le' hk
    have hlen : (es.take k).length = k := List.length_take_of_le (by omega)
    have hle : (es.take k).countP sequencerTurn ≤ 64 := hcount ▸ (List.take_sublist k es).countP_le
    obtain ⟨u, hu, hprog, -⟩ := run_blockProgress (es.take k) (es.drop k ++ p :: rest) (blockProgress_start s)
      (by rw [hrest, ← List.append_assoc, List.take_append_drop]) (fun q hq => hr q (List.mem_of_mem_take hq))
      (by omega)
    rw [run_succ hstart]
    exact ⟨u, hlen ▸ hu, hprog.busy, hprog.h⟩
  · obtain ⟨u, hu, hprog, hur⟩ := run_blockProgress es (p :: rest) (blockProgress_start s) hrest hr (by omega)
    rw [hcount, Nat.zero_add] at hprog
    have hpu : sequencerTurn (samplePorts u) = true := by rwa [samplePorts, hur]
    obtain ⟨t, ht, htb, hti, hth, htblk, htin⟩ := blockProgress_fold hprog hpu
    refine ⟨t, ?_, htb, hti, hth, fun _ => congrFun htblk _, htin.trans (congrArg List.tail hur)⟩
    rw [show 2 + es.length = es.length + 1 + 1 by omega, run_succ hstart, run_add _ 1 hu, run_succ ht]
    rfl

/-! ### The machine never stops under the invariant (R153, R190) -/

/-- Settles O49: the invariant bounds a busy core's counter, and below the bound every step answers. -/
theorem stepAlwaysAnswers : Obligations.StepAlwaysAnswers :=
  fun _ ⟨_, _, hbusy⟩ => step_answers hbusy

/-! ### The arithmetic units (R140 to R142) -/

theorem add32_toNat (x y : Word) : (add32 x y).toNat = (x.toNat + y.toNat) % 2 ^ 32 := BitVec.toNat_add x y

theorem add32_comm (x y : Word) : add32 x y = add32 y x := BitVec.add_comm x y

theorem add32_assoc (x y z : Word) : add32 (add32 x y) z = add32 x (add32 y z) := BitVec.add_assoc x y z

theorem add32_zero (x : Word) : add32 x 0 = x := BitVec.add_zero x

/-- Settles O38: the laws of addition modulo 2^32, and its corner values by evaluation. -/
theorem adderWraps : Obligations.AdderWraps :=
  ⟨add32_toNat, fun x y z => ⟨add32_comm x y, add32_assoc x y z, add32_zero x⟩, by decide⟩

/-- Settles O40: each ADD32 reduces modulo 2^32, and the two chains are one sum by the laws of ADD32. -/
theorem fourOperandSum : Obligations.FourOperandSum := by
  refine fun f a kc m => ⟨?_, rfl, ?_⟩
  · rw [sum4, add32_toNat, add32_toNat, add32_toNat]
    omega
  · rw [sum4, add32_comm f, add32_assoc, add32_comm kc, add32_comm _ (add32 m kc)]

/-- ROTL32 is the library's rotation (R141). -/
theorem rotl32_eq_rotateLeft (x : Word) (n : BitVec 5) : rotl32 x n = x.rotateLeft n.toNat := by
  rw [BitVec.rotateLeft_def, Nat.mod_eq_of_lt n.isLt, rotl32]

/-- ROTL32 takes bit `m` to bit `(m + n) mod 32` (R141): the low `32 - n` bits move up, the others come in below. -/
theorem getLsbD_rotl32 (x : Word) (n : BitVec 5) {m : Nat} (hm : m < 32) :
    (rotl32 x n).getLsbD ((m + n.toNat) % 32) = x.getLsbD m := by
  have hn := n.isLt
  rw [rotl32_eq_rotateLeft, BitVec.getLsbD_rotateLeft_of_le hn]
  by_cases h : m + n.toNat < 32
  · rw [Nat.mod_eq_of_lt h, Nat.add_sub_cancel]
    simp [h]
  · have hwrap : (m + n.toNat) % 32 = m + n.toNat - 32 := by omega
    have hlow : m + n.toNat - 32 < n.toNat := by omega
    rw [hwrap, decide_eq_true hlow, cond_true, show 32 - n.toNat + (m + n.toNat - 32) = m by omega]

/-- The rotation to the right takes bit `(m + n) mod 32` back to bit `m`. -/
theorem getLsbD_rotateRight_word (x : Word) (n : BitVec 5) {m : Nat} (hm : m < 32) :
    (x.rotateRight n.toNat).getLsbD m = x.getLsbD ((m + n.toNat) % 32) := by
  have hn := n.isLt
  rw [BitVec.getLsbD_rotateRight_of_lt hn]
  by_cases h : m < 32 - n.toNat
  · rw [decide_eq_true h, cond_true, Nat.mod_eq_of_lt (by omega), Nat.add_comm]
  · rw [decide_eq_false h, decide_eq_true hm, cond_false, Bool.true_and,
      show m - (32 - n.toNat) = (m + n.toNat) % 32 by omega]

/-- The rotation to the right undoes ROTL32. -/
theorem rotateRight_rotl32 (x : Word) (n : BitVec 5) : (rotl32 x n).rotateRight n.toNat = x := by
  refine BitVec.eq_of_getLsbD_eq fun m hm => ?_
  rw [getLsbD_rotateRight_word _ n hm, getLsbD_rotl32 x n hm]

/-- ROTL32 undoes the rotation to the right: bit `k` comes from bit `(k - n) mod 32`, and that from bit `k`. -/
theorem rotl32_rotateRight (x : Word) (n : BitVec 5) : rotl32 (x.rotateRight n.toNat) n = x := by
  refine BitVec.eq_of_getLsbD_eq fun k hk => ?_
  have hlt : (k + (32 - n.toNat)) % 32 < 32 := Nat.mod_lt _ (by decide)
  have hk' : ((k + (32 - n.toNat)) % 32 + n.toNat) % 32 = k := by omega
  have hbit := (getLsbD_rotl32 (x.rotateRight n.toNat) n hlt).trans (getLsbD_rotateRight_word x n hlt)
  rwa [hk'] at hbit

/-- The formula of R141; what the right shift brings in fits the word. -/
theorem rotl32_toNat (x : Word) (n : BitVec 5) :
    (rotl32 x n).toNat = (x.toNat * 2 ^ n.toNat ||| x.toNat / 2 ^ (32 - n.toNat)) % 2 ^ 32 := by
  have hlow : x.toNat / 2 ^ (32 - n.toNat) < 2 ^ 32 := (Nat.div_le_self _ _).trans_lt x.isLt
  rw [rotl32, BitVec.toNat_or, BitVec.toNat_shiftLeft, BitVec.toNat_ushiftRight, Nat.shiftLeft_eq,
    Nat.shiftRight_eq_div_pow, Nat.or_mod_two_pow, Nat.mod_eq_of_lt hlow]

theorem rotl32_zero (x : Word) : rotl32 x 0#5 = x :=
  BitVec.eq_of_getLsbD_eq fun _ hm =>
    (congrArg _ (Nat.mod_eq_of_lt hm).symm).trans (getLsbD_rotl32 x 0#5 hm)

/-- Settles O39: the place of each bit, the formula, and amount 0. -/
theorem rotatorMovesBits : Obligations.RotatorMovesBits :=
  fun x n => ⟨fun _ => getLsbD_rotl32 x n, fun _ => rotl32_toNat x n, rotl32_zero x⟩

/-! ### The operations of the sequencer, one by one (R145 to R149) -/

/-- The counter after a step as a number (R26). -/
theorem counter_succ_eq_ofNat (i : StepIdx) : i + 1 = BitVec.ofNat 7 (i.toNat + 1) := by
  rw [BitVec.ofNat_add, BitVec.ofNat_toNat, BitVec.setWidth_eq]
  rfl

/-- Field `i[1:0]` of a step index (R12). -/
theorem colIdx_toNat (i : StepIdx) : (colIdx i).toNat = i.toNat % 4 := by
  rw [colIdx, BitVec.extractLsb'_toNat, Nat.shiftRight_zero]

/-- In round 1 the schedule index is the step index (R122). -/
theorem schedF_eq_ofNat (i : StepIdx) : schedF i = BitVec.ofNat 4 i.toNat := by
  rw [schedF, BitVec.extractLsb', Nat.shiftRight_zero]

/-- The amounts of a row of R110, by the column of the step. -/
theorem rotAmount_col (r : BitVec 2) (i : StepIdx) :
    (rotAmount r (colIdx i)).toNat =
      ([[7, 12, 17, 22], [5, 9, 14, 20], [4, 11, 16, 23], [6, 10, 15, 21]].getD r.toNat []).getD (i.toNat % 4) 0 := by
  rw [rotAmount_toNat, colIdx_toNat]

/-- What a STEP leaves, with its rotation amount `n` and its counter as numbers (R144). -/
theorem stepUpdate_eq {i : StepIdx} {r : BitVec 2} {n : Nat} (hn : (rotAmount r (colIdx i)).toNat = n)
    (f : Word) (k : BitVec 4) (s : State) :
    stepUpdate i r f k s = { s with
      w := ⟨s.w.d, (f + s.w.a + kConst i + msgWord s k).rotateLeft n + s.w.b, s.w.b, s.w.c⟩,
      i := BitVec.ofNat 7 (i.toNat + 1) } := by
  rw [stepUpdate, rotl32_eq_rotateLeft, hn, counter_succ_eq_ofNat]
  rfl

/-- Settles O10: word `i` selects STEP.F, whose guard holds, with row 0 of the rotation amounts. -/
theorem stepFResult : Obligations.StepFResult := by
  refine fun i s hb hi hle => ⟨decodeStep_stepF (by omega), (execStepF_next i s _).mpr ⟨⟨hb, hi, hle⟩, ?_⟩⟩
  rw [stepUpdate_eq (rotAmount_col 0#2 i), schedF_eq_ofNat]
  rfl

/-- Settles O11: word `i` selects STEP.G, whose guard holds, with row 1 of the rotation amounts. -/
theorem stepGResult : Obligations.StepGResult := by
  refine fun i s hb hi hlo hhi => ⟨decodeStep_stepG (by omega), (execStepG_next i s _).mpr ⟨⟨hb, hi, hlo, hhi⟩, ?_⟩⟩
  rw [stepUpdate_eq (rotAmount_col 1#2 i)]
  rfl

/-- Settles O12: word `i` selects STEP.H, whose guard holds, with row 2 of the rotation amounts. -/
theorem stepHResult : Obligations.StepHResult := by
  refine fun i s hb hi hlo hhi => ⟨decodeStep_stepH (by omega), (execStepH_next i s _).mpr ⟨⟨hb, hi, hlo, hhi⟩, ?_⟩⟩
  rw [stepUpdate_eq (rotAmount_col 2#2 i)]
  rfl

/-- Settles O13: word `i` selects STEP.I, whose guard holds, with row 3 of the rotation amounts. -/
theorem stepIResult : Obligations.StepIResult := by
  refine fun i s hb hi hlo hhi => ⟨decodeStep_stepI (by omega), (execStepI_next i s _).mpr ⟨⟨hb, hi, hlo, hhi⟩, ?_⟩⟩
  rw [stepUpdate_eq (rotAmount_col 3#2 i)]
  rfl

/-- Settles O14: the FOLD's guard holds, and its four sums are those of the words. -/
theorem foldResult : Obligations.FoldResult :=
  ⟨rfl, fun s hb hi => (execFold_next s _).mpr ⟨⟨hb, hi⟩, rfl⟩⟩

/-- Settles O16: the FOLD's update writes none of these. -/
theorem foldFrame : Obligations.FoldFrame := by
  intro s t h
  obtain ⟨-, rfl⟩ := (execFold_next s t).mp h
  exact ⟨rfl, fun _ => rfl, rfl, rfl, rfl⟩

/-- A STEP that answers was selected by BUSY and the counter, and leaves its update (R145 to R148). -/
theorem exec_step_next {k : StepIdx} {ins : Instr} {s t : State}
    (hins : ins = .stepF k ∨ ins = .stepG k ∨ ins = .stepH k ∨ ins = .stepI k) (h : exec ins s = .next t) :
    s.busy = true ∧ s.i = k ∧ ∃ r f m, t = stepUpdate k r f m s := by
  rcases hins with rfl | rfl | rfl | rfl
  · obtain ⟨⟨hb, hi, -⟩, ht⟩ := (execStepF_next k s t).mp h
    exact ⟨hb, hi, _, _, _, ht⟩
  · obtain ⟨⟨hb, hi, -⟩, ht⟩ := (execStepG_next k s t).mp h
    exact ⟨hb, hi, _, _, _, ht⟩
  · obtain ⟨⟨hb, hi, -⟩, ht⟩ := (execStepH_next k s t).mp h
    exact ⟨hb, hi, _, _, _, ht⟩
  · obtain ⟨⟨hb, hi, -⟩, ht⟩ := (execStepI_next k s t).mp h
    exact ⟨hb, hi, _, _, _, ht⟩

/-- Settles O15: each STEP leaves an update of `W` and the counter. -/
theorem stepFrame : Obligations.StepFrame := by
  intro k ins s t hins h
  obtain ⟨-, -, r, f, m, rfl⟩ := exec_step_next hins h
  obtain ⟨hh, hblk, hb, hin, hret, hres, -⟩ := stepUpdate_frame k r f m s
  exact ⟨hh, hb, congrFun (blkByte_congr hblk hres), hin, hret, hres⟩

/-- Settles O19: every guard asks for BUSY and for the counter to be the operation's own. -/
theorem notEnabledStops : Obligations.NotEnabledStops := by
  refine fun k s => ⟨fun hoff => ?_, fun hoff => ?_⟩
  · have hguard : ¬ (s.busy = true ∧ s.i = k) := fun ⟨hb, hi⟩ => hoff.elim (by simp [hb]) (· hi)
    exact ⟨if_neg fun ⟨hb, hi, _⟩ => hguard ⟨hb, hi⟩, if_neg fun ⟨hb, hi, _⟩ => hguard ⟨hb, hi⟩,
      if_neg fun ⟨hb, hi, _⟩ => hguard ⟨hb, hi⟩, if_neg fun ⟨hb, hi, _⟩ => hguard ⟨hb, hi⟩⟩
  · exact if_neg fun ⟨hb, hi⟩ => hoff.elim (by simp [hb]) (· hi)

/-! ### The four STEPs as one datapath that can be undone (R143, R144, R154) -/

/-- A word that runs to a next state decodes to the instruction that leads there. -/
theorem exists_decode_of_runWord_next {w : InstrWord} {s t : State} (h : runWord w s = .next t) :
    ∃ ins, decode w = .ok ins ∧ exec ins s = .next t := by
  unfold runWord at h
  split at h
  · exact ⟨_, ‹_›, h⟩
  · nomatch h

/-- Settles O17: the counter's operation is the one datapath whichever STEP it is, so its word decodes to one. -/
theorem stepsComputeStepval : Obligations.StepsComputeStepval := by
  intro s hb hi
  have hrun := runWord_counter_round hb hi
  rw [counter_succ_eq_ofNat] at hrun
  exact exists_decode_of_runWord_next hrun

/-- The step words in 0..63 select the four STEPs, with themselves as the index (R82). -/
theorem isStep_of_decodeStep {w : StepIdx} {ins : Instr} (hw : w.toNat ≤ 63) (h : decodeStep w = .ok ins) :
    ins = .stepF w ∨ ins = .stepG w ∨ ins = .stepH w ∨ ins = .stepI w := by
  rcases decodeStep_cases w with ⟨-, e⟩ | ⟨-, -, e⟩ | ⟨-, -, e⟩ | ⟨-, -, e⟩ | ⟨rfl, -⟩ | ⟨hlo, -⟩
  · exact .inl (Except.ok.inj (h.symm.trans e))
  · exact .inr (.inl (Except.ok.inj (h.symm.trans e)))
  · exact .inr (.inr (.inl (Except.ok.inj (h.symm.trans e))))
  · exact .inr (.inr (.inr (Except.ok.inj (h.symm.trans e))))
  · exact absurd hw (by decide)
  · omega

/-- The inverse of step `i` on the working registers (R154). -/
def unstepQuad (i : StepIdx) (w : Quad) (blk : BitVec 6 → Byte) : Quad :=
  ⟨(w.b - w.c).rotateRight (rotAmount (roundIdx i) (colIdx i)).toNat
      - roundMux (roundIdx i) w.c w.d w.a - kConst i - unpack blk (sched i), w.c, w.d, w.a⟩

theorem unstepQuad_stepQuad (i : StepIdx) (w : Quad) (blk : BitVec 6 → Byte) :
    unstepQuad i (stepQuad i w blk) blk = w := by
  simp only [unstepQuad, stepQuad, stepVal, sum4, add32, BitVec.add_sub_cancel, rotateRight_rotl32]
  congr 1
  ring

theorem stepQuad_unstepQuad (i : StepIdx) (w : Quad) (blk : BitVec 6 → Byte) :
    stepQuad i (unstepQuad i w blk) blk = w := by
  have hsum : ∀ f x k m : Word, sum4 f (x - f - k - m) k m = x := fun f x k m => by
    simp only [sum4, add32]
    ring
  simp only [unstepQuad, stepQuad, stepVal, hsum, rotl32_rotateRight]
  rw [add32, BitVec.sub_add_cancel]

theorem stepQuad_bijective (i : StepIdx) (blk : BitVec 6 → Byte) : Function.Bijective fun w => stepQuad i w blk :=
  Function.bijective_iff_has_inverse.mpr
    ⟨fun w => unstepQuad i w blk, fun w => unstepQuad_stepQuad i w blk, fun w => stepQuad_unstepQuad i w blk⟩

/-- Settles O18: the old registers are the inverse's of the new ones. -/
theorem stepIsBijection : Obligations.StepIsBijection := by
  refine ⟨fun s t ins hi hd h => ?_, fun i blk _ => stepQuad_bijective i blk⟩
  obtain ⟨hb, -⟩ := exec_step_next (isStep_of_decodeStep hi hd) h
  obtain rfl := (next_next _ _).mp ((runWord_counter_round hb hi).symm.trans ((runWord_step hd s).trans h))
  exact ⟨rfl, rfl, rfl, congrArg Quad.a (unstepQuad_stepQuad s.i s.w (blkByte s)).symm⟩

end Sys2Proof.Machine

namespace Sys2Proof.Machine

/-! ### The sample of the ports decides the transition (R150, R160, R197, R210) -/

theorem samplePorts_of_inputs {s : State} {p : Ports} {rest : List Ports} (h : s.inputs = p :: rest) :
    samplePorts s = p := by
  rw [samplePorts, h]
  rfl

theorem advance_of_inputs {s : State} {p : Ports} {rest : List Ports} (h : s.inputs = p :: rest) :
    advance s = { s with inputs := rest } := by
  rw [advance, h]
  rfl

/-- A sample with `rst = 1` is the reset transition, whatever else it presents (R210). -/
theorem step_reset {s : State} (h : (samplePorts s).rst = true) : step s = .next (resetTransition (advance s)) := by
  rw [step, nextAction, if_pos h, takeAction]

/-- On the sequencer's turn an idle core only uses up the sample (R150, log entry 2). -/
theorem step_idle {s : State} (hb : s.busy = false) (ht : sequencerTurn (samplePorts s) = true) :
    step s = .next (advance s) := by
  rcases nextAction_cases s with ⟨hr, -⟩ | ⟨-, hs, -⟩ | ⟨-, hbusy, -⟩ | ⟨-, -, e⟩
  · simp [sequencerTurn, hr] at ht
  · simp [sequencerTurn, hs] at ht
  · exact absurd (hb.symm.trans hbusy) nofun
  · rw [step, e, takeAction]

/-- Settles O9: reset first, then the transaction presented, then the sequencer, which moves only while busy. -/
theorem portsChooseTheTransition : Obligations.PortsChooseTheTransition := by
  refine fun s => ⟨fun p rest hin => ?_, fun hquiet => ?_⟩
  · have hp := samplePorts_of_inputs hin
    refine ⟨fun hr => ?_, fun hr hs => ?_⟩
    · rw [step_reset (hp ▸ hr), advance_of_inputs hin]
    · simp only [nextAction, hp, hr, hs, Bool.false_eq_true, if_false, if_true]
      rfl
  · have ht : sequencerTurn (samplePorts s) = true := by
      rcases hquiet with ⟨p, rest, hin, hr, hs⟩ | hin
      · simp [samplePorts_of_inputs hin, sequencerTurn, hr, hs]
      · exact sequencerTurn_of_quiet hin
    exact ⟨nextAction_of_turn ht, fun hb => step_idle hb ht⟩

/-! ### Results and frames of the host's transactions (R161 to R167) -/

/-- Settles O22: RD only gives a byte, which is no hardware state. -/
theorem rdFrame : Obligations.RdFrame := by
  intro a s t h
  obtain rfl := (execRd_next a s t).mp h
  exact ⟨⟨rfl, rfl, rfl, rfl, fun _ => rfl⟩, rfl, rfl, rfl, memRead_congr rfl rfl rfl⟩

/-- Settles O24: a write is dropped, stores at its own address, or is INIT or START. -/
theorem wrFrame : Obligations.WrFrame := by
  intro a v s t h
  obtain rfl := (execWr_next a v s t).mp h
  rcases memWrite_cases a v s with e | ⟨-, ha, e⟩ | ⟨-, ha, hv, e⟩ | ⟨-, ha, hv, e⟩ <;> rw [e]
  · exact ⟨fun _ _ => rfl, fun _ => rfl, fun _ => ⟨rfl, rfl, rfl⟩, rfl, rfl, rfl⟩
  · refine ⟨fun n hn => ?_, fun _ => rfl, fun _ => ⟨rfl, rfl, rfl⟩, rfl, rfl, rfl⟩
    rw [blkByte_setBlk, if_neg]
    rintro rfl
    exact hn (blkIndex_toNat a ha)
  · exact ⟨fun _ _ => rfl, fun hne => absurd ⟨ha, hv⟩ hne, fun _ => ⟨rfl, rfl, rfl⟩, rfl, rfl, rfl⟩
  · exact ⟨fun _ _ => rfl, fun _ => rfl, fun hne => absurd ⟨ha, hv⟩ hne, rfl, rfl, rfl⟩

/-- Settles O26: NOP's meaning answers the state it is given. -/
theorem nopResult : Obligations.NopResult :=
  ⟨rfl, fun s => (execNop_next s s).mpr rfl⟩

theorem exec_init_idle {s : State} (hb : s.busy = false) : exec .init s = .next (loadIV s) :=
  (execInit_next s _).mpr (by rw [hb, if_neg nofun])

theorem exec_start_idle {s : State} (hb : s.busy = false) : exec .start s = .next (startBlock s) :=
  (execStart_next s _).mpr (by rw [hb, if_neg nofun])

/-- Settles O27: INIT's load of the constants while idle, its being dropped while busy, and its idempotence. -/
theorem initResult : Obligations.InitResult :=
  ⟨rfl, fun s => ⟨exec_init_idle, fun hb => (execInit_next s s).mpr (if_pos hb).symm, fun _ => execInit_idempotent⟩⟩

/-- Settles O28: START's update while idle, and its being dropped while busy. -/
theorem startResult : Obligations.StartResult :=
  ⟨rfl, fun s => ⟨exec_start_idle, fun hb => (execStart_next s s).mpr (if_pos hb).symm⟩⟩

theorem execInit_cases {s t : State} (h : exec .init s = .next t) : t = s ∨ t = loadIV s := by
  rw [(execInit_next s t).mp h]
  exact ite_eq_or_eq _ _ _

theorem execStart_cases {s t : State} (h : exec .start s = .next t) : t = s ∨ t = startBlock s := by
  rw [(execStart_next s t).mp h]
  exact ite_eq_or_eq _ _ _

/-- Settles O29: each command is dropped or makes its own update, which writes none of these. -/
theorem commandFrame : Obligations.CommandFrame := by
  refine fun s t => ⟨(execNop_next s t).mp, fun h => ?_, fun h => ?_, fun h => ?_⟩
  · rcases execInit_cases h with rfl | rfl <;> exact ⟨rfl, rfl, rfl⟩
  · rcases execStart_cases h with rfl | rfl <;> rfl
  · obtain (rfl | rfl) | (rfl | rfl) := h.imp execInit_cases execStart_cases <;>
      exact ⟨fun _ => rfl, rfl, rfl, rfl⟩

/-- Settles O30: writes are dropped, reads only give a byte, and reset clears BUSY. -/
theorem busyLocksHost : Obligations.BusyLocksHost := by
  refine fun s hb => ⟨fun w hw => ?_, fun w hw => ?_, fun hr => ?_⟩
  · rw [exec_decodeBus_of_write hw, memWrite_busy _ _ s hb]
  · exact ⟨_, exec_decodeBus_of_read hw s⟩
  · exact ⟨_, step_reset hr, rfl⟩

/-! ### Waiting for the end of a block (R94, R168) -/

/-- A presented read gives its byte and uses up the sample, in any state (R161). -/
theorem step_rd {s : State} {addr : Addr} {rest : List Ports} (hin : s.inputs = rd addr :: rest) :
    step s = .next (giveByte (memRead s addr) (advance s)) := by
  have hd : decode (.bus (busWord false addr 0x00#8)) = .ok (.rd addr) := congrArg _ (decodeBus_read addr _)
  rw [(stepRunsDecodedWord s _).1 _ (nextAction_busSample hin) hd]
  rfl

/-- The block that began from `s` has been `n` turns of the sequencer under way: it is in progress up to the 64th, and the
65th was the FOLD, after which the core stays idle. -/
inductive WaitProgress (s : State) (n : Nat) (t : State) : Prop where
  | running (hn : n ≤ 64) (h : BlockProgress s n t)
  | done (hn : 65 ≤ n) (busy : t.busy = false) (h : t.h = compress1 s.h (blkByte s)) (blk : blkByte t = blkByte s)

section
variable {s t : State} {n : Nat}

theorem waitProgress_busy_iff (h : WaitProgress s n t) : t.busy = false ↔ 65 ≤ n := by
  cases h with
  | running hn hprog => exact iff_of_false (by simp [hprog.busy]) (by omega)
  | done hn hb => exact iff_of_true hb hn

/-- Once BUSY is 0, `H` and BLK are those of the compressed block. -/
theorem waitProgress_result (h : WaitProgress s n t) (hb : t.busy = false) :
    t.h = compress1 s.h (blkByte s) ∧ blkByte t = blkByte s := by
  cases h with
  | running _ hprog => exact absurd (hb.symm.trans hprog.busy) nofun
  | done _ _ hh hblk => exact ⟨hh, hblk⟩

/-- A turn of the sequencer is the next STEP, the FOLD, or an idle core's step. -/
theorem waitProgress_turn (h : WaitProgress s n t) (ht : sequencerTurn (samplePorts t) = true) :
    ∃ u, step t = .next u ∧ WaitProgress s (n + 1) u ∧ u.inputs = t.inputs.tail := by
  cases h with
  | running hn hprog =>
    rcases Nat.lt_or_eq_of_le hn with hlt | rfl
    · obtain ⟨u, hu, hprog', hin⟩ := blockProgress_turn hprog hlt ht
      exact ⟨u, hu, .running hlt hprog', hin⟩
    · obtain ⟨u, hu, hb, -, hh, hblk, hin⟩ := blockProgress_fold hprog ht
      exact ⟨u, hu, .done (Nat.le_refl _) hb hh hblk, hin⟩
  | done hn hb hh hblk => exact ⟨_, step_idle hb ht, .done (Nat.le_succ_of_le hn) hb hh hblk, rfl⟩

/-- A read of STATUS changes nothing the wait depends on. -/
theorem waitProgress_status {rest : List Ports} (h : WaitProgress s n t) (hin : t.inputs = statusSample :: rest) :
    ∃ u, step t = .next u ∧ WaitProgress s n u ∧ u.inputs = t.inputs.tail := by
  refine ⟨_, step_rd hin, ?_, rfl⟩
  cases h with
  | running hn hprog => exact .running hn ⟨hprog.busy, hprog.counter, hprog.h, hprog.w, hprog.blk⟩
  | done hn hb hh hblk => exact .done hn hb hh hblk

/-- A wait takes one turn of the block, or of the idle core after it, for each turn of the sequencer. -/
theorem run_wait (wait rest : List Ports) (h : WaitProgress s n t) (hin : t.inputs = wait ++ rest)
    (hw : ∀ q ∈ wait, q = Ports.idle ∨ q = statusSample) :
    ∃ u, run wait.length t = .next u ∧ WaitProgress s (n + wait.countP sequencerTurn) u ∧ u.inputs = rest := by
  induction wait generalizing t n with
  | nil => exact ⟨t, rfl, h, hin⟩
  | cons p wait ih =>
    have htail : t.inputs.tail = wait ++ rest := congrArg List.tail hin
    obtain ⟨hp, hrest⟩ := List.forall_mem_cons.mp hw
    rcases hp with rfl | rfl
    · obtain ⟨u, hu, hprog, hun⟩ := waitProgress_turn h (by rw [samplePorts_of_inputs hin]; rfl)
      rw [List.length_cons, run_succ hu, List.countP_cons_of_pos rfl, Nat.add_comm (wait.countP _), ← Nat.add_assoc]
      exact ih hprog (hun.trans htail) hrest
    · obtain ⟨u, hu, hprog, hun⟩ := waitProgress_status h hin
      rw [List.length_cons, run_succ hu, List.countP_cons_of_neg (by decide)]
      exact ih hprog (hun.trans htail) hrest

end

/-! ### One block (R168) -/

/-- `ldblk`, `start` and a wait of any length on an idle core: the block is done exactly when the wait had 65 turns. -/
theorem run_hashblk {s : State} {bs : List Byte} {wait rest : List Ports} (hb : s.busy = false)
    (hlen : bs.length = 64) (hin : s.inputs = hashblk bs wait ++ rest)
    (hw : ∀ q ∈ wait, q = Ports.idle ∨ q = statusSample) :
    ∃ t, run (65 + wait.length) s = .next t ∧ (t.busy = false ↔ 65 ≤ wait.countP sequencerTurn) ∧
      (t.busy = false → t.h = compress1 s.h (blockView bs) ∧ blkByte t = blockView bs) ∧ t.inputs = rest := by
  obtain ⟨u, hu, hframe, hblk⟩ := loadBlock s bs (startSample :: (wait ++ rest)) hb hlen
    (by rw [hin, hashblk, List.append_assoc, List.cons_append])
  have hblk : blkByte u = blockView bs := funext hblk
  have huh : u.h = s.h := by rw [hframe]
  have hub : u.busy = false := by rw [hframe, hb]
  have huin : u.inputs = startSample :: (wait ++ rest) := by rw [hframe]
  obtain ⟨t, ht, hprog, htin⟩ := run_wait wait rest (.running (Nat.zero_le _) (blockProgress_start u))
    (congrArg List.tail huin) hw
  rw [Nat.zero_add] at hprog
  refine ⟨t, ?_, waitProgress_busy_iff hprog, fun htb => ?_, htin⟩
  · rw [Nat.add_assoc 64 1, Nat.add_comm 1, run_add _ _ hu, run_succ (step_startSample hub huin), ht]
  · rw [← hblk, ← huh]
    exact waitProgress_result hprog htb

/-- The last read of STATUS in a wait returns what BUSY is when the wait ends (R32). -/
theorem hashblk_last_status {s t : State} {bs : List Byte} {wait : List Ports} (hb : s.busy = false)
    (hlen : bs.length = 64) (hin : s.inputs = hashblk bs wait) (hw : ∀ q ∈ wait, q = Ports.idle ∨ q = statusSample)
    (hlast : wait.getLast? = some statusSample) (ht : run (65 + wait.length) s = .next t) :
    t.returned.getLast? = some (statusByte t) := by
  obtain ⟨ws, rfl⟩ := List.getLast?_eq_some_iff.mp hlast
  obtain ⟨u, hu, -, -, huin⟩ := run_hashblk (wait := ws) (rest := [statusSample]) hb hlen
    (by rw [hin, hashblk, hashblk, List.append_assoc, List.cons_append])
    (fun q hq => hw q (List.mem_append_left _ hq))
  rw [List.length_append, List.length_singleton, ← Nat.add_assoc, run_add _ 1 hu, run_succ (step_rd huin)] at ht
  obtain rfl := (next_next _ _).mp ht
  exact List.getLast?_concat

theorem statusByte_eq_zero_iff (s : State) : statusByte s = 0x00#8 ↔ s.busy = false := by
  rw [statusByte_eq]
  cases s.busy <;> decide

/-- Settles O56: the block is done when BUSY is 0, and the last STATUS read returns BUSY. -/
theorem oneBlock : Obligations.OneBlock := by
  intro s bs wait hb hlen hin hw
  obtain ⟨t, ht, hbusy, hdone, -⟩ := run_hashblk (rest := []) hb hlen (by rw [hin, List.append_nil]) hw
  refine ⟨t, ht, hbusy, fun htb => ?_, fun hlast => ?_⟩
  · obtain ⟨hh, hblk⟩ := hdone htb
    exact ⟨hh, congrFun hblk⟩
  · rw [hashblk_last_status hb hlen hin hw hlast ht, Option.some_inj, statusByte_eq_zero_iff]

/-! ### One message (R169) -/

/-- A step takes no returned byte back (log entry 6). -/
theorem step_returned_grows {s t : State} (h : step s = .next t) : s.returned <+: t.returned := by
  cases stepEffect_of_step h with
  | read addr => exact ⟨[_], rfl⟩
  | _ => exact ⟨[], List.append_nil _⟩

theorem run_returned_grows {n : Nat} {s t : State} (h : run n s = .next t) : s.returned <+: t.returned := by
  induction n generalizing s with
  | zero => rw [(next_next s t).mp h]
  | succ n ih =>
    cases hs : step s with
    | next u =>
      rw [run_succ hs] at h
      exact (step_returned_grows hs).trans (ih h)
    | fault f => simp [run, hs] at h
    | refused r => simp [run, hs] at h

theorem length_ldblkFrom (n : Nat) (bs : List Byte) : (ldblkFrom n bs).length = bs.length := by
  induction bs generalizing n with
  | nil => rfl
  | cons b bs ih => rw [ldblkFrom, List.length_cons, ih, List.length_cons]

theorem length_hashblk (bs : List Byte) (wait : List Ports) :
    (hashblk bs wait).length = bs.length + 1 + wait.length := by
  rw [hashblk, ldblk, List.length_append, length_ldblkFrom, List.length_cons]
  omega

/-- A sequence of `hashblk`, each with its wait, leaves an idle core with the chained result of the blocks (R152). -/
theorem run_hashblks (blocks : List (List Byte)) (waits : List (List Ports)) (rest : List Ports) {s : State}
    (hb : s.busy = false) (hlen : ∀ b ∈ blocks, b.length = 64) (hwaits : waits.length = blocks.length)
    (hw : ∀ w ∈ waits, isWait w) (hin : s.inputs = (List.zipWith hashblk blocks waits).flatten ++ rest) :
    ∃ t, run (List.zipWith hashblk blocks waits).flatten.length s = .next t ∧ t.busy = false ∧
      t.h = chain s.h (blocks.map blockView) ∧ t.inputs = rest := by
  induction blocks generalizing waits s with
  | nil => exact ⟨s, rfl, hb, rfl, hin⟩
  | cons b blocks ih =>
    obtain ⟨w, waits, rfl⟩ := List.exists_cons_of_length_eq_add_one hwaits
    obtain ⟨hblen, hlen⟩ := List.forall_mem_cons.mp hlen
    obtain ⟨⟨hsamples, hturns⟩, hw⟩ := List.forall_mem_cons.mp hw
    rw [List.zipWith_cons_cons, List.flatten_cons] at hin ⊢
    obtain ⟨u, hu, hbusy, hdone, huin⟩ := run_hashblk hb hblen (hin.trans (List.append_assoc ..)) hsamples
    have hub := hbusy.mpr hturns
    obtain ⟨t, ht, htb, hth, htin⟩ := ih waits hub hlen (Nat.succ.inj hwaits) hw huin
    rw [List.length_append, length_hashblk, hblen, run_add _ _ hu, List.map_cons, chain_cons, ← (hdone hub).1]
    exact ⟨t, ht, htb, hth, htin⟩

theorem length_of_mem_cutBlocks {n : Nat} {bs b : List Byte} (hn : 64 * n ≤ bs.length) (h : b ∈ cutBlocks n bs) :
    b.length = 64 := by
  induction n generalizing bs with
  | zero => nomatch h
  | succ n ih =>
    rcases List.mem_cons.mp h with rfl | h
    · exact List.length_take_of_le (by omega)
    · exact ih (by rw [List.length_drop]; omega) h

/-- A sequence of reads returns the bytes at its addresses and changes nothing else (R161). -/
theorem run_rds (addrs : List Addr) (rest : List Ports) {s : State} (hin : s.inputs = addrs.map rd ++ rest) :
    run addrs.length s = .next { s with inputs := rest, returned := s.returned ++ addrs.map (memRead s) } := by
  induction addrs generalizing s with
  | nil =>
    obtain rfl : s.inputs = rest := hin
    rw [List.map_nil, List.append_nil]
    rfl
  | cons a addrs ih =>
    have hsame : memRead (giveByte (memRead s a) (advance s)) = memRead s := memRead_congr rfl rfl rfl
    rw [List.length_cons, run_succ (step_rd hin), ih (congrArg List.tail hin), hsame, giveByte_returned,
      advance_returned, List.append_assoc, List.map_cons, List.singleton_append]
    rfl

/-- The bytes of the STATE window, in ascending address order, are the digest bytes of `H` (R33, R183). -/
theorem memRead_window_eq_stateBytes (s : State) :
    (List.range 16).map (fun n => memRead s (BitVec.ofNat 7 (0x40 + n))) = stateBytes s.h := by
  have hbytes : stateBytes s.h =
      (List.range 16).map fun n => ([s.h.a, s.h.b, s.h.c, s.h.d].getD (n / 4) 0).extractLsb' (8 * (n % 4)) 8 := rfl
  rw [hbytes]
  refine List.map_congr_left fun n hn => ?_
  have hn := List.mem_range.mp hn
  rw [← memRead_stateWindow s (by omega) (by omega), Nat.add_assoc, Nat.div_add_mod]

/-- `rdstate` returns the digest bytes of `H` (R94, R183). -/
theorem run_rdstate {s : State} (hin : s.inputs = rdstate) :
    run rdstate.length s = .next { s with inputs := [], returned := s.returned ++ stateBytes s.h } := by
  have h := run_rds ((List.range 16).map fun n => BitVec.ofNat 7 (0x40 + n)) [] (s := s)
    (by rw [hin, List.append_nil, List.map_map]; rfl)
  rw [List.map_map] at h
  rw [← memRead_window_eq_stateBytes]
  exact h

/-- Settles O60: the blocks of the padded message are 64 bytes each, and the STATE window then holds their chained
result. -/
theorem oneMessageWithoutInit : Obligations.OneMessageWithoutInit := by
  intro s m waits hb hiv hwaits hw hin
  have hlen : ∀ b ∈ messageBlocks m, b.length = 64 := fun b => length_of_mem_cutBlocks (by omega)
  obtain ⟨t, ht, htb, hth, htin⟩ := run_hashblks _ waits rdstate hb hlen hwaits hw hin
  obtain ⟨answers, hanswers⟩ := run_returned_grows ht
  have hdigest : t.h = digestState m := by rw [hth, hiv]; rfl
  have hrun : run s.inputs.length s = run rdstate.length t := by rw [hin, List.length_append, run_add _ _ ht]
  refine ⟨_, answers, hrun.trans (run_rdstate htin), htb, ?_⟩
  rw [hanswers, hdigest]

/-- An idle core's INIT is accepted and loads the initial constants (R166). -/
theorem step_initSample {s : State} {rest : List Ports} (hb : s.busy = false)
    (hin : s.inputs = initSample :: rest) : step s = .next (loadIV (advance s)) := by
  rw [(stepRunsDecodedWord s .init).1 _ (nextAction_busSample hin) rfl]
  exact exec_init_idle hb

/-- Settles O57: INIT leads to a core as `oneMessageWithoutInit` asks for. -/
theorem oneMessage : Obligations.OneMessage := by
  intro s m waits hb hwaits hw hin
  have htail : (loadIV (advance s)).inputs = _ := congrArg List.tail hin
  obtain ⟨t, answers, ht, htb, hret⟩ := oneMessageWithoutInit (loadIV (advance s)) m waits hb rfl hwaits hw htail
  refine ⟨t, answers, ?_, htb, hret⟩
  rw [htail, List.tail_cons] at ht
  rw [hin, List.length_cons, run_succ (step_initSample hb hin), ht]

end Sys2Proof.Machine

namespace Sys2Proof.Machine

/-! ### The padded buffer (R181, R182) -/

theorem length_le64 (n : Nat) : (le64 n).length = 8 := rfl

/-- Byte `j` of the length field is digit `j` of the length in base 256, modulo 2^64 (R181). -/
theorem getElem?_le64 (n : Nat) {j : Nat} (hj : j < 8) :
    (le64 n)[j]? = some (BitVec.ofNat 8 (n % 2 ^ 64 / 256 ^ j)) := by
  have hpow : 2 ^ (8 * j) = 256 ^ j := pow_mul 2 8 j
  have hbyte : (BitVec.ofNat 64 n).extractLsb' (8 * j) 8 = BitVec.ofNat 8 (n % 2 ^ 64 / 256 ^ j) := by
    apply BitVec.eq_of_toNat_eq
    rw [BitVec.extractLsb'_toNat, BitVec.toNat_ofNat, BitVec.toNat_ofNat, Nat.shiftRight_eq_div_pow, hpow]
  rw [le64, List.getElem?_map, List.getElem?_range hj, Option.map_some, hbyte]

/-- The buffer with its four parts as a right-nested append. -/
theorem pad_eq (m : List Byte) :
    pad m = m ++ (0x80#8 :: (List.replicate (padZeros m.length) 0x00#8 ++ le64 (8 * m.length))) := by
  rw [pad, List.append_assoc, List.cons_append]

theorem length_pad (m : List Byte) : (pad m).length = m.length + 1 + padZeros m.length + 8 := by
  rw [pad_eq, List.length_append, List.length_cons, List.length_append, List.length_replicate, length_le64]
  omega

theorem length_pad_blocks (m : List Byte) : (pad m).length = 64 * ((m.length + 8) / 64 + 1) := by
  rw [length_pad, padZeros]
  omega

theorem take_pad (m : List Byte) : (pad m).take m.length = m := by
  rw [pad_eq, List.take_left]

theorem getElem?_pad_marker (m : List Byte) : (pad m)[m.length]? = some 0x80#8 := by
  rw [pad_eq, List.getElem?_append_right le_rfl, Nat.sub_self, List.getElem?_cons_zero]

theorem getElem?_pad_zero (m : List Byte) {i : Nat} (hi : i < padZeros m.length) :
    (pad m)[m.length + (i + 1)]? = some 0x00#8 := by
  rw [pad_eq, List.getElem?_append_right (Nat.le_add_right ..), Nat.add_sub_cancel_left, List.getElem?_cons_succ,
    List.getElem?_append_left (by rwa [List.length_replicate]), List.getElem?_replicate_of_lt hi]

theorem getElem?_pad_lengthField (m : List Byte) (j : Nat) :
    (pad m)[(pad m).length - 8 + j]? = (le64 (8 * m.length))[j]? := by
  have hstart : (pad m).length - 8 = (m ++ 0x80#8 :: List.replicate (padZeros m.length) 0x00#8).length := by
    rw [pad, List.length_append, length_le64, Nat.add_sub_cancel]
  rw [hstart, pad, List.getElem?_append_right (Nat.le_add_right ..), Nat.add_sub_cancel_left]

/-- Settles O58, part by part of the buffer: the message, the marker, the zeros and the length field. -/
theorem paddingShape : Obligations.PaddingShape := by
  intro m
  refine ⟨length_pad_blocks m, take_pad m, getElem?_pad_marker m, fun k hlo hhi => ?_, fun j hj => ?_⟩
  · obtain ⟨i, rfl⟩ := Nat.exists_eq_add_of_lt hlo
    rw [length_pad] at hhi
    exact getElem?_pad_zero m (by omega)
  · rw [getElem?_pad_lengthField, getElem?_le64 _ hj]

/-! ### The digest text (R183) -/

theorem length_finalize (q : Quad) : (finalize q).length = 32 := rfl

/-- A character of the text is a digit of the alphabet; the default of `hexDigit` is one too. -/
theorem hexDigit_isDigit_or_letter (n : Nat) :
    (hexDigit n).isDigit = true ∨ ('a' ≤ hexDigit n ∧ hexDigit n ≤ 'f') := by
  by_cases hn : n < 16
  · have hdigits : ∀ k < 16, (hexDigit k).isDigit = true ∨ ('a' ≤ hexDigit k ∧ hexDigit k ≤ 'f') := by decide
    exact hdigits n hn
  · have hzero : hexDigit n = '0' := List.getD_eq_default _ _ (not_lt.mp hn)
    rw [hzero]
    decide

/-- Every character of the text is the digit of some nibble. -/
theorem exists_hexDigit_of_mem_finalize {q : Quad} {c : Char} (hc : c ∈ finalize q) : ∃ n, c = hexDigit n := by
  obtain ⟨b, -, hb⟩ := List.mem_flatMap.mp hc
  rcases List.mem_pair.mp hb with rfl | rfl
  · exact ⟨_, rfl⟩
  · exact ⟨_, rfl⟩

/-- Settles O59: the window returns the digest bytes, and each character of the text is a hexadecimal digit. -/
theorem digestText : Obligations.DigestText := by
  intro s
  refine ⟨memRead_window_eq_stateBytes s, length_finalize s.h, fun c hc => ?_, by decide⟩
  obtain ⟨n, rfl⟩ := exists_hexDigit_of_mem_finalize hc
  exact hexDigit_isDigit_or_letter n

end Sys2Proof.Machine

namespace Sys2Proof.Machine

/-! ### Host errors (R191, R192) -/

/-- The write errors of R191 and what each of them says of the write and the state. -/
theorem mem_hostErrors_write (e : HostError) (s : State) (a : Addr) (v : Byte) :
    e ∈ hostErrors s true a v ↔
      (s.busy = true ∧ e = .writeWhileBusy) ∨
      ((a = ctrlAddr ∧ 2 < v.toNat) ∧ e = .reservedCommand) ∨
      (0x52 ≤ a.toNat ∧ e = .unmappedAccess) ∨
      ((0x40 ≤ a.toNat ∧ a.toNat ≤ 0x51 ∧ a ≠ ctrlAddr) ∧ e = .readOnlyWrite) ∨
      ((a = ctrlAddr ∧ v = 0x02#8 ∧ s.busy = false ∧ s.blk.length < 64) ∧ e = .startUnwritten) := by
  simp [hostErrors, and_assoc]

/-- The one read error is the access to an unmapped address (R56). -/
theorem hostErrors_read_ne_nil (s : State) (a : Addr) (v : Byte) : hostErrors s false a v ≠ [] ↔ 0x52 ≤ a.toNat := by
  simp [hostErrors]

/-- A reserved value written to CTRL does nothing, idle or busy (R92). -/
theorem memWrite_reserved {v : Byte} (hv : 2 < v.toNat) (s : State) : memWrite ctrlAddr v s = s := by
  rcases memWrite_cases ctrlAddr v s with e | ⟨-, ha, -⟩ | ⟨-, -, rfl, -⟩ | ⟨-, -, rfl, -⟩
  · exact e
  · exact absurd ha (by decide)
  · exact absurd hv (by decide)
  · exact absurd hv (by decide)

/-- Every write error but START on an unwritten block is dropped, for its own reason (R191). -/
theorem memWrite_of_hostError {e : HostError} {s : State} {a : Addr} {v : Byte} (he : e ∈ hostErrors s true a v)
    (hne : e ≠ .startUnwritten) : memWrite a v s = s := by
  rcases (mem_hostErrors_write e s a v).mp he with
    ⟨hb, -⟩ | ⟨⟨rfl, hv⟩, -⟩ | ⟨ha, -⟩ | ⟨⟨hlo, -, hc⟩, -⟩ | ⟨-, hstart⟩
  · exact memWrite_busy a v s hb
  · exact memWrite_reserved hv s
  · have hc : a ≠ ctrlAddr := by
      rintro rfl
      exact absurd ha (by decide)
    exact memWrite_readOnly (by omega) hc v s
  · exact memWrite_readOnly hlo hc v s
  · exact absurd hstart hne

/-- START on an unwritten block is the write of START's byte to CTRL (R167). -/
theorem write_of_startUnwritten {s : State} {a : Addr} {v : Byte} (h : .startUnwritten ∈ hostErrors s true a v) :
    a = ctrlAddr ∧ v = 0x02#8 := by
  obtain ⟨ha, hv, -⟩ : a = ctrlAddr ∧ v = 0x02#8 ∧ s.busy = false ∧ s.blk.length < 64 := by
    simpa [mem_hostErrors_write] using h
  exact ⟨ha, hv⟩

/-- Settles O37: an error other than START on an unwritten block drops the write, that one is the command START, and the
only read error is an unmapped address, which reads as 0. -/
theorem hostErrorOutcomes : Obligations.HostErrorOutcomes := by
  refine fun s a v => ⟨fun herr hno => ?_, fun hstart => ?_, fun herr => ?_⟩
  · obtain ⟨e, he⟩ := List.exists_mem_of_ne_nil _ herr
    exact congrArg _ (memWrite_of_hostError he fun h => hno (h ▸ he))
  · obtain ⟨rfl, rfl⟩ := write_of_startUnwritten hstart
    obtain ⟨-, -, hwr⟩ := execWr_ctrl s
    exact hwr
  · exact (unmappedAndReadOnly a v s).1 ((hostErrors_read_ne_nil s a v).mp herr)

end Sys2Proof.Machine

namespace Sys2Proof.Machine

/-! ### The reset transition (R210, R211) -/

/-- Settles O46: the sample's `rst` alone decides the transition, `resetTransition` takes nothing but the later samples,
the bytes returned and the number of resets from the state, and using up the sample changes only which samples are left. -/
theorem resetTransition_of_rst : Obligations.ResetTransition := by
  intro s p rest hin hr
  have hstep : step s = .next (resetTransition { s with inputs := rest }) :=
    advance_of_inputs hin ▸ step_reset (samplePorts_of_inputs hin ▸ hr)
  exact ⟨_, hstep, resetTransition_h _, resetTransition_i _, resetTransition_busy _, blkByte_resetTransition _,
    resetTransition_inputs _, resetTransition_returned _⟩

end Sys2Proof.Machine
